-- ==== Sys2Proof/Word.lean ====
section
/-! DEFINITION. The word types of the engine (00_scope.md R11, 40_word_primitives.md R100): bytes and the two
word widths. All words are unsigned (R11); `+`, `&&&`, `|||`, `^^^` and `~~~` on `BitVec` are R101's and R102's
operations. The primitives built on them are in `Machine/Primitives.lean`. -/

namespace Sys2Proof

/-- A byte (R11). -/
abbrev Byte := BitVec 8

/-- The words of families E1 and E256 (R100). -/
abbrev W32 := BitVec 32

/-- The words of family E512 (R100), and the width of ARG0..ARG2 and CCOUNT (R40). -/
abbrev W64 := BitVec 64

end Sys2Proof
end

