-- ==== Sys2Proof/Syntax.lean ====
section
/-! DEFINITION. The names the engine works with: algorithms, families, error codes, the fourteen commands of
spec/opcode_table.json (30_encoding.md R87), and what a host can do to the machine. -/

namespace Sys2Proof

/-- The five algorithms (00_scope.md R2). -/
inductive Alg where
  | sha1 | sha224 | sha256 | sha384 | sha512
deriving DecidableEq, Repr

/-- The three compression engines (00_scope.md R9). -/
inductive Family where
  | e1 | e256 | e512
deriving DecidableEq, Repr

/-- The results a command reports (60_exceptions.md R301). Codes 8 to 15 are never produced: they are no constructor. -/
inductive ErrCode where
  | ok | badOp | reservedBits | badAlg | notActive | range | length | overlap
deriving DecidableEq, Repr

/-- The commands, one constructor per row of the opcode table. No command word holds an operand: all 32 bits of
every word are fixed (R87), and the operands are ARG0 to ARG2 (R86). -/
inductive Instr where
  | initSha1
  | initSha224
  | initSha256
  | initSha384
  | initSha512
  | update
  | final
  | finalDiscard
  | oneshotSha1
  | oneshotSha224
  | oneshotSha256
  | oneshotSha384
  | oneshotSha512
  | tohex
deriving DecidableEq, Repr

/-- The row INIT.`a`. -/
def Instr.initOf : Alg → Instr
  | .sha1 => .initSha1
  | .sha224 => .initSha224
  | .sha256 => .initSha256
  | .sha384 => .initSha384
  | .sha512 => .initSha512

/-- The row ONESHOT.`a`. -/
def Instr.oneshotOf : Alg → Instr
  | .sha1 => .oneshotSha1
  | .sha224 => .oneshotSha224
  | .sha256 => .oneshotSha256
  | .sha384 => .oneshotSha384
  | .sha512 => .oneshotSha512

/-- The field `[hi:lo]` of a register (00_scope.md R11). -/
structure BitField where
  hi : Nat
  lo : Nat
deriving DecidableEq, Repr

/-- What reaches the machine from outside, one at a time: the host's accesses (10_state.md R30, R48), its assertions
(30_encoding.md R93), resets (70_reset_and_hazards.md R340, R341) and races (20_memory.md R75). `k` is the engine instance, `off` the byte offset
inside its 0x40-byte register block (R47), `w` the access width in bytes. -/
inductive HostAction where
  /-- A register write of `w` bytes; a write to CMD issues a command (R41). -/
  | regWrite (k : Nat) (off : BitVec 6) (w : Nat) (v : W64)
  /-- A register read of `w` bytes. -/
  | regRead (k : Nat) (off : BitVec 6) (w : Nat)
  /-- The host's assertion that field `f` of a register is `v` (30_encoding.md R93). -/
  | check (k : Nat) (off : BitVec 6) (w : Nat) (f : BitField) (v : Nat)
  /-- The host writes one byte of host memory. -/
  | memWrite (a : Nat) (b : Byte)
  /-- The host reads one byte of host memory. -/
  | memRead (a : Nat)
  /-- The platform resets instance `k` between commands (R340). -/
  | reset (k : Nat)
  /-- The platform resets instance `k` while it runs the command word `v` (R341, U10). -/
  | resetDuring (k : Nat) (v : W32)
  /-- Command word `v` runs on instance `k` while another agent writes the bytes at `addrs` (R75, R345, U8). -/
  | race (k : Nat) (v : W32) (addrs : List Nat)
deriving DecidableEq, Repr

end Sys2Proof
end

