-- ==== Sys2Proof/Config.lean ====
section
/-! DEFINITION. What an implementation or its platform fixes (00_scope.md R10), as plain data, and the one free
value of the model. -/

namespace Sys2Proof

/-- A range of host addresses, `size` bytes from `base`. -/
structure Region where
  base : Nat
  size : Nat
deriving DecidableEq, Repr

/-- The implementation parameters (R10). They are named arguments of the model: `State.cfg` holds them, no step
writes them, and a statement about every state holds for every value of them (assumption log 1). -/
structure Config where
  /-- `ADDR_W`, the width in bits of a host-memory address (R60, U13). -/
  addrW : Nat
  /-- `HAS_DISCARD`, whether FINAL.DISCARD exists (R83, R240, U12). -/
  hasDiscard : Bool
  /-- `N_ENGINES`, the number of engine instances (R331, U14). -/
  nEngines : Nat
  /-- `REG_BASE[k]`, the host address of instance k's register block (R73, U7). -/
  regBase : List Nat
  /-- The parts of host memory whose reads or writes have side effects (R72, U6, assumption log 9). -/
  sideEffect : List Region
deriving DecidableEq, Repr

/-- The configuration that 95_test_vectors.md section 11 runs its programs with: `HAS_DISCARD` true, `ADDR_W` 64,
`N_ENGINES` 1. The register block lies above host memory and all of host memory is plain
(DESIGN CHOICE, assumption log 1). -/
def Config.standard : Config where
  addrW := 64
  hasDiscard := true
  nEngines := 1
  regBase := [2 ^ 64]
  sideEffect := []

/-- FREE VALUE (assumption log 11): the byte that the `n`-th racing or interrupted memory byte comes to hold. The
spec admits any value there (U8, U10), so nothing may be proved of it. -/
opaque Config.freeByte : Nat → Byte

end Sys2Proof
end

