-- ==== Sys2Proof/Machine/Params.lean ====
section
/-! DEFINITION. The parameters each algorithm and family fixes (00_scope.md R8), and the algorithm codes
(30_encoding.md R84). -/

namespace Sys2Proof

/-- ENGINE of R8. -/
@[reducible] def Alg.family : Alg → Family
  | .sha1 => .e1
  | .sha224 => .e256
  | .sha256 => .e256
  | .sha384 => .e512
  | .sha512 => .e512

/-- `w`, the word width in bits (R8). -/
@[reducible] def Family.w : Family → Nat
  | .e1 => 32
  | .e256 => 32
  | .e512 => 64

/-- `n`, the number of chaining words (R8). -/
@[reducible] def Family.n : Family → Nat
  | .e1 => 5
  | .e256 => 8
  | .e512 => 8

/-- `R`, the number of rounds (R8). -/
def Family.rounds : Family → Nat
  | .e1 => 80
  | .e256 => 64
  | .e512 => 80

/-- `B`, the block size in bytes (R8). -/
def Family.B : Family → Nat
  | .e1 => 64
  | .e256 => 64
  | .e512 => 128

/-- `L`, the length-field size in bytes (R8). -/
def Family.L : Family → Nat
  | .e1 => 8
  | .e256 => 8
  | .e512 => 16

/-- `LW`, the width of the bit counter (R8). -/
@[reducible] def Family.LW : Family → Nat
  | .e1 => 64
  | .e256 => 64
  | .e512 => 128

/-- `DL`, the digest length in bytes (R8). -/
def Alg.DL : Alg → Nat
  | .sha1 => 20
  | .sha224 => 28
  | .sha256 => 32
  | .sha384 => 48
  | .sha512 => 64

/-- The algorithm code (R8, R84). -/
def Alg.code : Alg → BitVec 3
  | .sha1 => 1
  | .sha224 => 2
  | .sha256 => 3
  | .sha384 => 4
  | .sha512 => 5

/-- The algorithm a code selects; codes 0, 6 and 7 select none (R84). -/
def Alg.ofCode (c : BitVec 3) : Option Alg :=
  if c = 1 then some .sha1
  else if c = 2 then some .sha224
  else if c = 3 then some .sha256
  else if c = 4 then some .sha384
  else if c = 5 then some .sha512
  else none

end Sys2Proof
end

