-- ==== Sys2Proof/WellFormed.lean ====
section
/-! DEFINITION. Which commands and configurations are well formed. -/

namespace Sys2Proof

/-- A command exists under `HAS_DISCARD` = `hasDiscard` (30_encoding.md R87, R88): FINAL.DISCARD only if it is true,
every other command always. -/
def Instr.wf (hasDiscard : Bool) : Instr → Bool
  | .initSha1 | .initSha224 | .initSha256 | .initSha384 | .initSha512 => true
  | .update => true
  | .final => true
  | .finalDiscard => hasDiscard
  | .oneshotSha1 | .oneshotSha224 | .oneshotSha256 | .oneshotSha384 | .oneshotSha512 => true
  | .tohex => true

/-- The register blocks at bases `a` and `b`, 0x40 bytes each (10_state.md R47), do not meet. -/
abbrev blocksApart (a b : Nat) : Prop := a + 0x40 ≤ b ∨ b + 0x40 ≤ a

/-- A configuration a platform can have: at least one engine (R10), a base for each (R73), and blocks of their own
(R331). -/
def Config.wf (c : Config) : Bool :=
  decide (1 ≤ c.nEngines) && decide (c.regBase.length = c.nEngines) && decide (c.regBase.Pairwise blocksApart)

end Sys2Proof
end

