-- ==== Sys2Proof/Decode.lean ====
section
/-! DEFINITION. The command decoder, total on all 2^32 words (30_encoding.md R88, R92), and after it the encoder
(R80, R81, R84, R87). -/

namespace Sys2Proof

/-- `CMD[3:0]` (R80). -/
def opField (v : W32) : BitVec 4 := v.extractLsb' 0 4

/-- `CMD[6:4]` (R80). -/
def algField (v : W32) : BitVec 3 := v.extractLsb' 4 3

/-- `CMD[7]` (R80). -/
def discardField (v : W32) : BitVec 1 := v.extractLsb' 7 1

/-- `CMD[31:8]` (R80). -/
def reservedField (v : W32) : BitVec 24 := v.extractLsb' 8 24

/-- The OP values (R81). -/
def opInit : BitVec 4 := 0x1
def opUpdate : BitVec 4 := 0x2
def opFinal : BitVec 4 := 0x3
def opOneshot : BitVec 4 := 0x4
def opTohex : BitVec 4 := 0x5

/-- The command of fields that R92's field checks have admitted; its last check, BAD_ALG, is `Alg.ofCode`'s `none`. -/
def commandOf (op : BitVec 4) (alg : BitVec 3) (disc : BitVec 1) : Except ErrCode Instr :=
  if op = opUpdate then .ok .update
  else if op = opFinal then if disc = 1 then .ok .finalDiscard else .ok .final
  else if op = opTohex then .ok .tohex
  else
    match Alg.ofCode alg with
    | none => .error .badAlg
    | some a => if op = opInit then .ok (.initOf a) else .ok (.oneshotOf a)

/-- R92's decoder: the checks in the order written there; the first that fails decides the error. -/
def decode (hasDiscard : Bool) (v : W32) : Except ErrCode Instr :=
  let op := opField v
  let alg := algField v
  let disc := discardField v
  if op ≠ opInit ∧ op ≠ opUpdate ∧ op ≠ opFinal ∧ op ≠ opOneshot ∧ op ≠ opTohex then .error .badOp
  else if reservedField v ≠ 0 then .error .reservedBits
  else if (op = opUpdate ∨ op = opFinal ∨ op = opTohex) ∧ alg ≠ 0 then .error .reservedBits
  else if op ≠ opFinal ∧ disc = 1 then .error .reservedBits
  else if op = opFinal ∧ disc = 1 ∧ hasDiscard = false then .error .reservedBits
  else commandOf op alg disc

/-- A command word of its fields, the reserved bits 0 (R80, R85). -/
def commandWord (op : BitVec 4) (alg : BitVec 3) (disc : BitVec 1) : W32 :=
  ((0 : BitVec 24) ++ disc ++ alg ++ op).cast (by decide)

/-- The word of each command (R81 to R84). -/
def encode : Instr → W32
  | .initSha1 => commandWord opInit Alg.sha1.code 0
  | .initSha224 => commandWord opInit Alg.sha224.code 0
  | .initSha256 => commandWord opInit Alg.sha256.code 0
  | .initSha384 => commandWord opInit Alg.sha384.code 0
  | .initSha512 => commandWord opInit Alg.sha512.code 0
  | .update => commandWord opUpdate 0 0
  | .final => commandWord opFinal 0 0
  | .finalDiscard => commandWord opFinal 0 1
  | .oneshotSha1 => commandWord opOneshot Alg.sha1.code 0
  | .oneshotSha224 => commandWord opOneshot Alg.sha224.code 0
  | .oneshotSha256 => commandWord opOneshot Alg.sha256.code 0
  | .oneshotSha384 => commandWord opOneshot Alg.sha384.code 0
  | .oneshotSha512 => commandWord opOneshot Alg.sha512.code 0
  | .tohex => commandWord opTohex 0 0

/-- What the decoder of the standard configuration reads from an instruction of `nbits` bits whose bits are `w`. A
command is one 32-bit word (R80), so anything with a bit above bit 31 is none. -/
def decodeTableWord (nbits w : Nat) : Option Instr :=
  let v := w % 2 ^ nbits
  if v < 2 ^ 32 then (decode Config.standard.hasDiscard (BitVec.ofNat 32 v)).toOption else none

end Sys2Proof
end

