-- ==== Sys2Proof/Machine/Primitives.lean ====
section
/-! DEFINITION. The word primitives, boolean functions, sigma functions and big-endian conversions
(40_word_primitives.md). -/

namespace Sys2Proof.Machine

/-- `ROTR^k(x)`, 0 < k < w (R104). -/
def rotr {w : Nat} (k : Nat) (x : BitVec w) : BitVec w := (x >>> k) ||| (x <<< (w - k))

/-- `ROTL^k(x)`, 0 < k < w (R105). -/
def rotl {w : Nat} (k : Nat) (x : BitVec w) : BitVec w := (x <<< k) ||| (x >>> (w - k))

/-- `SHR^k(x)` (R106). -/
def shr {w : Nat} (k : Nat) (x : BitVec w) : BitVec w := x >>> k

/-- `Ch` (R109). -/
def ch {w : Nat} (x y z : BitVec w) : BitVec w := (x &&& y) ^^^ (~~~x &&& z)

/-- `Maj` (R110). -/
def maj {w : Nat} (x y z : BitVec w) : BitVec w := (x &&& y) ^^^ (x &&& z) ^^^ (y &&& z)

/-- `Parity` (R111). -/
def parity (x y z : W32) : W32 := x ^^^ y ^^^ z

/-- `Σ0_256` (R112). -/
def bigSigma0of256 (x : W32) : W32 := rotr 2 x ^^^ rotr 13 x ^^^ rotr 22 x

/-- `Σ1_256` (R113). -/
def bigSigma1of256 (x : W32) : W32 := rotr 6 x ^^^ rotr 11 x ^^^ rotr 25 x

/-- `σ0_256` (R114). -/
def smallSigma0of256 (x : W32) : W32 := rotr 7 x ^^^ rotr 18 x ^^^ shr 3 x

/-- `σ1_256` (R115). -/
def smallSigma1of256 (x : W32) : W32 := rotr 17 x ^^^ rotr 19 x ^^^ shr 10 x

/-- `Σ0_512` (R116). -/
def bigSigma0of512 (x : W64) : W64 := rotr 28 x ^^^ rotr 34 x ^^^ rotr 39 x

/-- `Σ1_512` (R117). -/
def bigSigma1of512 (x : W64) : W64 := rotr 14 x ^^^ rotr 18 x ^^^ rotr 41 x

/-- `σ0_512` (R118). -/
def smallSigma0of512 (x : W64) : W64 := rotr 1 x ^^^ rotr 8 x ^^^ shr 7 x

/-- `σ1_512` (R119). -/
def smallSigma1of512 (x : W64) : W64 := rotr 19 x ^^^ rotr 61 x ^^^ shr 6 x

/-- `BE_LOAD` of a byte sequence as an integer: `v <- v·256 + s[i]` over the bytes in order (R120). -/
def beLoad (s : List Byte) : Nat := s.foldl (fun v b => v * 256 + b.toNat) 0

/-- `BE_STORE_k(v)`: the k bytes of the integer `v`, most significant first (R121). -/
def beStore (k v : Nat) : List Byte := (List.range k).map fun i => BitVec.ofNat 8 (v >>> (8 * (k - 1 - i)))

/-- `WORDS_w(blk)`: sixteen words, word i from bytes `i·w/8 ..< (i+1)·w/8` of the block (R122). -/
def wordsOf (w : Nat) (blk : List Byte) : Vector (BitVec w) 16 :=
  Vector.ofFn fun i => BitVec.ofNat w (beLoad ((blk.drop (i * (w / 8))).take (w / 8)))

/-- `HEXCHAR(v)` (46_collaborators.md R263). -/
def hexChar (v : BitVec 4) : Byte := if v.toNat ≤ 9 then v.setWidth 8 + 0x30 else v.setWidth 8 - 10 + 0x61

/-- The two characters of a byte, high nibble first (R263). -/
def hexPair (x : Byte) : List Byte := [hexChar (x.extractLsb' 4 4), hexChar (x.extractLsb' 0 4)]

/-- The hex text of a byte sequence (R262). -/
def hexText (bs : List Byte) : List Byte := bs.flatMap hexPair

end Sys2Proof.Machine
end

