-- ==== Sys2Proof/Machine/Schedule.lean ====
section
/-! DEFINITION. The message schedule (42_schedule.md): the 16-slot circular buffer the design assumes (R155 to R157),
which the compression engine runs on, and the eager tables that define the schedule's values (R150 to R153). -/

namespace Sys2Proof.Machine

/-- The schedule buffer `W16[0..15]` (10_state.md R51). -/
abbrev W16 (w : Nat) := Vector (BitVec w) 16

/-- Slot `i mod 16`. -/
def W16.slot {w : Nat} (W : W16 w) (i : Nat) : BitVec w := W[i % 16]'(Nat.mod_lt i (by decide))

/-- Overwrite slot `i mod 16`. -/
def W16.put {w : Nat} (W : W16 w) (i : Nat) (x : BitVec w) : W16 w := W.set (i % 16) x (Nat.mod_lt i (by decide))

/-- The buffer after round t's E1 update; rounds 0 to 15 leave it alone (R155, R156). -/
def schedStep1 (W : W16 32) (t : Nat) : W16 32 :=
  if t < 16 then W
  else
    let s := t % 16
    W.put s (rotl 1 (W.slot (s + 13) ^^^ W.slot (s + 8) ^^^ W.slot (s + 2) ^^^ W.slot s))

/-- The buffer after round t's E256 or E512 update, by that family's σ0 and σ1 (R155, R157). -/
def schedStep2 {w : Nat} (σ0 σ1 : BitVec w → BitVec w) (W : W16 w) (t : Nat) : W16 w :=
  if t < 16 then W
  else
    let s := t % 16
    W.put s (σ1 (W.slot (s + 14)) + W.slot (s + 9) + σ0 (W.slot (s + 1)) + W.slot s)

/-- The buffer update of a family. -/
def schedStep : (f : Family) → W16 f.w → Nat → W16 f.w
  | .e1 => schedStep1
  | .e256 => schedStep2 smallSigma0of256 smallSigma1of256
  | .e512 => schedStep2 smallSigma0of512 smallSigma1of512

/-- The buffer as rounds 0 .. t of family `f` leave it, loaded from the block's words `M`. -/
def circularAfter (f : Family) (M : W16 f.w) : Nat → W16 f.w
  | 0 => schedStep f M 0
  | t + 1 => schedStep f (circularAfter f M t) (t + 1)

/-- `SCHED(t)`: the word round t reads (R155). -/
def sched (f : Family) (M : W16 f.w) (t : Nat) : BitVec f.w := (circularAfter f M t).slot t

/-- Word t of a partly filled table. -/
def tableWord {w : Nat} (tbl : List (BitVec w)) (t : Nat) : BitVec w := tbl.getD t 0

/-- The next word, `W_t` with t = |tbl|, of a family's eager table (R151, R152, R153). -/
def eagerNext : (f : Family) → List (BitVec f.w) → BitVec f.w
  | .e1, tbl =>
    let t := tbl.length
    rotl 1 (tableWord tbl (t - 3) ^^^ tableWord tbl (t - 8) ^^^ tableWord tbl (t - 14) ^^^ tableWord tbl (t - 16))
  | .e256, tbl =>
    let t := tbl.length
    smallSigma1of256 (tableWord tbl (t - 2)) + tableWord tbl (t - 7) + smallSigma0of256 (tableWord tbl (t - 15)) +
      tableWord tbl (t - 16)
  | .e512, tbl =>
    let t := tbl.length
    smallSigma1of512 (tableWord tbl (t - 2)) + tableWord tbl (t - 7) + smallSigma0of512 (tableWord tbl (t - 15)) +
      tableWord tbl (t - 16)

/-- The eager table of 16 + k words: the block's sixteen words (R150), then k by the recurrence. -/
def eagerTable (f : Family) (M : W16 f.w) : Nat → List (BitVec f.w)
  | 0 => M.toList
  | k + 1 => eagerTable f M k ++ [eagerNext f (eagerTable f M k)]

/-- `W_t` of the eager form, from the full-size table of R words (R150 to R153). -/
def eagerWord (f : Family) (M : W16 f.w) (t : Nat) : BitVec f.w := tableWord (eagerTable f M (f.rounds - 16)) t

end Sys2Proof.Machine
end

