-- ==== Sys2Proof/Machine/Compress.lean ====
section
/-! DEFINITION. The compression engine (43_compression.md). The working registers, the temporaries and `W16` exist
only inside one `COMPRESS_f` (10_state.md R50, R51): they are the values a compression passes from round to round. -/

namespace Sys2Proof.Machine

/-- The working registers of E1 (R50). -/
structure Work5 where
  a : W32
  b : W32
  c : W32
  d : W32
  e : W32
deriving DecidableEq, Repr

/-- The working registers of E256 and E512 (R50). -/
structure Work8 (w : Nat) where
  a : BitVec w
  b : BitVec w
  c : BitVec w
  d : BitVec w
  e : BitVec w
  f : BitVec w
  g : BitVec w
  h : BitVec w
deriving DecidableEq, Repr

/-- `f_t` (R181). -/
def roundFunction1 (t : Nat) (b c d : W32) : W32 :=
  if t < 20 then ch b c d else if t < 40 then parity b c d else if t < 60 then maj b c d else parity b c d

/-- Round t of E1 on `Wt` (R180, R182). -/
def roundStep1 (r : Work5) (t : Nat) (Wt : W32) : Work5 :=
  let T := rotl 5 r.a + roundFunction1 t r.b r.c r.d + r.e + k1.getD (t / 20) 0 + Wt
  { a := T, b := r.a, c := rotl 30 r.b, d := r.c, e := r.d }

/-- One round of E256 or E512 by that family's Σ0 and Σ1, on its round constant and schedule word (R188 to R190,
R195). -/
def roundStep2 {w : Nat} (bigS0 bigS1 : BitVec w → BitVec w) (r : Work8 w) (Kt Wt : BitVec w) : Work8 w :=
  let T1 := r.h + bigS1 r.e + ch r.e r.f r.g + Kt + Wt
  let T2 := bigS0 r.a + maj r.a r.b r.c
  { a := T1 + T2, b := r.a, c := r.b, d := r.c, e := r.d + T1, f := r.e, g := r.f, h := r.g }

/-- The first `R` rounds in order, t = 0, 1, …, each on its own `SCHED(t)` (R172): the buffer and the registers they
leave. -/
def runRounds {ω : Type} {w : Nat} (next : W16 w → Nat → W16 w) (round : ω → Nat → BitVec w → ω) (M : W16 w) (r : ω)
    (R : Nat) : W16 w × ω :=
  (List.range R).foldl (fun st t => let W := next st.1 t; (W, round st.2 t (W.slot t))) (M, r)

/-- `FEEDFORWARD(H, x)` (R198). -/
def feedForward {w n : Nat} (H x : Vector (BitVec w) n) : Vector (BitVec w) n := Vector.zipWith (· + ·) H x

/-- The registers loaded from `H` (R180). -/
def Work5.load (H : Vector W32 5) : Work5 := ⟨H[0], H[1], H[2], H[3], H[4]⟩

/-- `(a, b, c, d, e)` (R180). -/
def Work5.toVector (r : Work5) : Vector W32 5 := #v[r.a, r.b, r.c, r.d, r.e]

/-- The registers loaded from `H` (R187, R194). -/
def Work8.load {w : Nat} (H : Vector (BitVec w) 8) : Work8 w := ⟨H[0], H[1], H[2], H[3], H[4], H[5], H[6], H[7]⟩

/-- `(a, b, c, d, e, f, g, h)` (R187, R194). -/
def Work8.toVector {w : Nat} (r : Work8 w) : Vector (BitVec w) 8 := #v[r.a, r.b, r.c, r.d, r.e, r.f, r.g, r.h]

/-- `COMPRESS_1(H, blk)` (R180). -/
def compress1 (H : Vector W32 5) (blk : List Byte) : Vector W32 5 :=
  feedForward H (runRounds schedStep1 roundStep1 (wordsOf 32 blk) (Work5.load H) 80).2.toVector

/-- `COMPRESS_256(H, blk)` (R187). -/
def compress256 (H : Vector W32 8) (blk : List Byte) : Vector W32 8 :=
  feedForward H
    (runRounds (schedStep2 smallSigma0of256 smallSigma1of256)
      (fun r t Wt => roundStep2 bigSigma0of256 bigSigma1of256 r (k256.getD t 0) Wt)
      (wordsOf 32 blk) (Work8.load H) 64).2.toVector

/-- `COMPRESS_512(H, blk)` (R194). -/
def compress512 (H : Vector W64 8) (blk : List Byte) : Vector W64 8 :=
  feedForward H
    (runRounds (schedStep2 smallSigma0of512 smallSigma1of512)
      (fun r t Wt => roundStep2 bigSigma0of512 bigSigma1of512 r (k512.getD t 0) Wt)
      (wordsOf 64 blk) (Work8.load H) 80).2.toVector

/-- `COMPRESS_f(H, blk)` (R170). -/
def compress : (f : Family) → Vector (BitVec f.w) f.n → List Byte → Vector (BitVec f.w) f.n
  | .e1 => compress1
  | .e256 => compress256
  | .e512 => compress512

end Sys2Proof.Machine
end

