-- ==== Sys2Proof/Machine/State.lean ====
section
/-! DEFINITION. The state of the machine as plain data (10_state.md), the reasons a step can stop, and the machine
after reset. -/

namespace Sys2Proof.Machine

/-- Host memory (20_memory.md R60) in one canonical form: addresses strictly rising, and no cell that holds what an
unlisted address reads as (`Memory.wf` in `Machine/Ops.lean`). -/
abbrev Memory := List Host.Cell

/-- The fields of an ACTIVE context of family `f`: the chaining value H (R33), the bit counter BC (R34) and the
pending bytes BUF (R35). -/
structure Active (f : Family) where
  h : Vector (BitVec f.w) f.n
  bc : BitVec f.LW
  buf : List Byte
deriving DecidableEq, Repr

/-- The context, as the tagged variant the spec asks for (R38): PHASE is the constructor, ALG the algorithm of the
ACTIVE shape. The other two shapes have no H, BC or BUF (assumption log 4). -/
inductive Ctx where
  | invalid
  | active (alg : Alg) (a : Active alg.family)
  | finalized
deriving DecidableEq, Repr

/-- One engine instance (R331): its context, argument registers, STATUS.ERR and CCOUNT. STATUS is a view of `ctx` and
`err` (`Machine/Flags.lean`); CMD has no storage (R41). -/
structure Engine where
  ctx : Ctx
  arg0 : W64
  arg1 : W64
  arg2 : W64
  err : ErrCode
  ccount : W64
deriving DecidableEq, Repr

/-- The machine: the engine instances and the host memory they share (R331), the configuration, and the host's side.
`eng` is instance number `cur`, the one the host's current access addresses; `parked` holds the others in order
(assumption log 14). -/
structure State where
  cfg : Config
  cur : Nat
  eng : Engine
  parked : List Engine
  mem : Memory
  /-- The host's actions not yet performed, oldest first (assumption log 2). -/
  queue : List HostAction
  /-- The value the host's latest read returned (assumption log 12). -/
  rdata : Option W64
  /-- Whether each of the host's assertions so far held, oldest first (30_encoding.md R93, assumption log 17). -/
  checks : List Bool
  /-- How many free bytes have been used up (assumption log 11). -/
  freeCtr : Nat
deriving DecidableEq, Repr

/-- Why the machine stops. No command raises a fault: 60_exceptions.md R300 reports every error in STATUS. -/
inductive Fault where
  /-- Raised by a host action on an engine instance the platform does not hold (R331). Safe (assumption log 8). -/
  | noSuchInstance
  /-- Raised by a host or racing access to an address at or above 2^ADDR_W (R60). Safe (assumption log 8). -/
  | noSuchAddress
deriving DecidableEq, Repr

/-- Why the model gives a situation no meaning. -/
inductive Refusal where
  /-- Raised by `exec` for an instruction without a meaning yet. Safe. -/
  | notModelled (mnemonic : String)
  /-- Raised by a partial-width, wider or misaligned access to a register block (R48, U5). Safe (assumption log 6). -/
  | registerAccess
  /-- Raised by an access of a command, of the host or of a racing agent to host memory with side effects (R72, U6). Safe (assumption log 9). -/
  | sideEffectMemory
deriving DecidableEq, Repr

/-- An engine instance after reset (R54, 70_reset_and_hazards.md R340). -/
def Engine.reset : Engine where
  ctx := .invalid
  arg0 := 0
  arg1 := 0
  arg2 := 0
  err := .ok
  ccount := 0

/-- The machine of configuration `c` after reset: every instance in its reset state (R331), no host action issued. -/
def State.resetOf (c : Config) : State where
  cfg := c
  cur := 0
  eng := Engine.reset
  parked := List.replicate (c.nEngines - 1) Engine.reset
  mem := []
  queue := []
  rdata := none
  checks := []
  freeCtr := 0

/-- The machine after reset, in the configuration of 95_test_vectors.md section 11 (assumption log 1). -/
def State.reset : State := State.resetOf Config.standard

end Sys2Proof.Machine
end

