-- ==== Sys2Proof/Machine/Ops.lean ====
section
/-! DEFINITION. The shared operations: host memory, instance selection, raising an error, loading and wiping a
context. -/

namespace Sys2Proof.Machine

/-! ### Host memory -/

/-- What a byte nothing has written reads as (DESIGN CHOICE, assumption log 3). -/
def Memory.unlisted : Byte := 0

/-- The canonical form. -/
def Memory.wf (m : Memory) : Bool :=
  decide (m.Pairwise fun x y => x.1 < y.1) && m.all fun c => c.2 != Memory.unlisted

/-- `MemRead(a, 1)` (R62). -/
def Memory.read : Memory → Nat → Byte
  | [], _ => Memory.unlisted
  | (b, v) :: m, a => if a = b then v else Memory.read m a

/-- `MemWrite(a, 1, v)` (R62). -/
def Memory.write : Memory → Nat → Byte → Memory
  | [], a, v => if v = Memory.unlisted then [] else [(a, v)]
  | (b, u) :: m, a, v =>
    if a < b then if v = Memory.unlisted then (b, u) :: m else (a, v) :: (b, u) :: m
    else if a = b then if v = Memory.unlisted then m else (a, v) :: m
    else (b, u) :: Memory.write m a v

/-- `MemRead(a, n)`: n bytes in ascending address order (00_scope.md R13, R65). -/
def Memory.readBytes (m : Memory) (a n : Nat) : List Byte := (List.range n).map fun i => Memory.read m (a + i)

/-- The bytes of a list written from address `a` upwards (R65). -/
def Memory.writeBytes : Memory → Nat → List Byte → Memory
  | m, _, [] => m
  | m, a, b :: bs => Memory.writeBytes (Memory.write m a b) (a + 1) bs

/-! ### Engine instances -/

/-- Every instance in order. -/
def State.engines (s : State) : List Engine := s.parked.take s.cur ++ s.eng :: s.parked.drop s.cur

/-- The state with instance `k` the addressed one; none where the platform holds no instance `k` (R331). No instance
changes. -/
def State.select (k : Nat) (s : State) : Option State :=
  if k = s.cur then some s
  else
    match s.engines[k]? with
    | none => none
    | some e => some { s with cur := k, eng := e, parked := s.engines.eraseIdx k }

/-! ### Errors -/

/-- STATUS.ERR takes the result of a command (10_state.md R45). -/
def State.setErr (e : ErrCode) (s : State) : State := { s with eng := { s.eng with err := e } }

/-- `raise e`: the command is refused. STATUS.ERR holds the code and nothing else changes (60_exceptions.md R300,
R310). There is no trap, nothing is saved and nothing is returned from (R314, R315), so this is a next state. -/
def State.raise (e : ErrCode) (s : State) : Host.Outcome State Fault Refusal := .next (s.setErr e)

/-! ### The context -/

/-- `WIPE()` (45_finalization.md R237): the context takes the Finalized shape, all of its storage zero (R55). CCOUNT
and the ARG registers are not touched. -/
def State.wipe (s : State) : State := { s with eng := { s.eng with ctx := .finalized } }

/-- A context being worked on together with CCOUNT, which its compressions advance (43_compression.md R199). -/
structure Hashing (f : Family) where
  act : Active f
  ccount : W64
deriving DecidableEq, Repr

/-- The effect of INIT on the context and CCOUNT (44_streaming.md R200). -/
def initStep (alg : Alg) : Hashing alg.family where
  act := { h := iv alg, bc := 0, buf := [] }
  ccount := 0

/-- The state whose context and CCOUNT are those of `x`. -/
def State.putHashing (alg : Alg) (x : Hashing alg.family) (s : State) : State :=
  { s with eng := { s.eng with ctx := .active alg x.act, ccount := x.ccount } }

/-! ### Free values -/

/-- Each byte at `addrs` comes to hold a free value (U8, U10, assumption log 11). -/
def State.scramble : List Nat → State → State
  | [], s => s
  | a :: as, s =>
    State.scramble as { s with mem := Memory.write s.mem a (Config.freeByte s.freeCtr), freeCtr := s.freeCtr + 1 }

end Sys2Proof.Machine
end

