-- ==== Sys2Proof/Machine/Operands.lean ====
section
/-! DEFINITION. The operands of the commands and the checks on them (30_encoding.md R86, 20_memory.md R63,
46_collaborators.md R264). -/

namespace Sys2Proof.Machine

/-- SRC, a byte address: ARG0 unsigned (R42, R86). -/
def State.src (s : State) : Nat := s.eng.arg0.toNat

/-- LEN, a byte count: ARG1 unsigned (R43, R86). -/
def State.len (s : State) : Nat := s.eng.arg1.toNat

/-- DST, a byte address: ARG2 unsigned (R44, R86). -/
def State.dst (s : State) : Nat := s.eng.arg2.toNat

/-- The message bytes of UPDATE, ONESHOT and TOHEX: `MemRead(SRC, LEN)`. -/
def State.srcBytes (s : State) : List Byte := Memory.readBytes s.mem s.src s.len

/-- `InRange(a, n)`, on integers (R63). -/
def inRange (c : Config) (a n : Nat) : Bool := n == 0 || decide (a + n ≤ 2 ^ c.addrW)

/-- Two byte ranges have a byte in common. -/
def rangesMeet (a n b m : Nat) : Bool := decide (0 < n) && decide (0 < m) && decide (a < b + m) && decide (b < a + n)

/-- The range has no byte with side effects (R72, assumption log 9). -/
def plainRange (c : Config) (a n : Nat) : Bool := c.sideEffect.all fun r => !rangesMeet a n r.base r.size

/-- TOHEX's overlap test, as R262 writes it. -/
def overlaps (src len dst : Nat) : Bool := decide (0 < len) && decide (src < dst + 2 * len) && decide (dst < src + len)

end Sys2Proof.Machine
end

