-- ==== Sys2Proof/Machine/Streaming.lean ====
section
/-! DEFINITION. INIT and UPDATE, and the internal steps they are made of (44_streaming.md). -/

namespace Sys2Proof.Machine

/-- `used`, the number of pending bytes: `(BC div 8) mod B` (10_state.md R36). -/
def Active.used {f : Family} (a : Active f) : Nat := a.bc.toNat / 8 % f.B

/-- `BC_HI` of a 128-bit counter (R34). -/
def bcHi (bc : BitVec 128) : W64 := bc.extractLsb' 64 64

/-- `BC_LO` of a 128-bit counter (R34). -/
def bcLo (bc : BitVec 128) : W64 := bc.extractLsb' 0 64

/-- `BC_ADD(k)` (40_word_primitives.md R108): one word for E1 and E256; for E512 two 64-bit words, where "overflow of
the low word increments the high word". -/
def bcAdd : (f : Family) → BitVec f.LW → Nat → BitVec f.LW
  | .e1, bc, k => bc + BitVec.ofNat 64 k
  | .e256, bc, k => bc + BitVec.ofNat 64 k
  | .e512, bc, k =>
    let lo := (bcLo bc).toNat + k % 2 ^ 64
    (bcHi bc + BitVec.ofNat 64 (k / 2 ^ 64) + BitVec.ofNat 64 (lo / 2 ^ 64)) ++ BitVec.ofNat 64 lo

/-- `COMPRESS_BLOCK(blk)`: H takes the compression's result and CCOUNT counts it (R206, 43_compression.md R199). -/
def compressBlock {f : Family} (x : Hashing f) (blk : List Byte) : Hashing f :=
  { act := { x.act with h := compress f x.act.h blk }, ccount := x.ccount + 1 }

/-- `ABSORB(b)` (R205). -/
def absorb {f : Family} (x : Hashing f) (b : Byte) : Hashing f :=
  let buf := x.act.buf ++ [b]
  let y : Hashing f := { x with act := { x.act with buf := buf, bc := bcAdd f x.act.bc 8 } }
  if buf.length = f.B then
    let z := compressBlock y buf
    { z with act := { z.act with buf := [] } }
  else y

/-- A chunk absorbed byte by byte, in order (R204). -/
def absorbAll {f : Family} (x : Hashing f) (m : List Byte) : Hashing f := m.foldl absorb x

/-- R207's loop over the complete blocks of the caller's bytes, and the tail copied to the buffer. `fuel` bounds the
number of blocks. -/
def absorbBlocks {f : Family} : Nat → Hashing f → List Byte → Hashing f
  | 0, x, m => { x with act := { x.act with buf := m, bc := bcAdd f x.act.bc (8 * m.length) } }
  | fuel + 1, x, m =>
    if f.B ≤ m.length then
      let y := compressBlock x (m.take f.B)
      absorbBlocks fuel { y with act := { y.act with bc := bcAdd f y.act.bc (8 * f.B) } } (m.drop f.B)
    else { x with act := { x.act with buf := m, bc := bcAdd f x.act.bc (8 * m.length) } }

/-- R207's block-wise procedure on a chunk: top up the pending block, compress whole blocks from the caller's memory,
keep the tail. The machine runs `absorbAll` (R204); R207 says the two agree. -/
def absorbBlockwise {f : Family} (x : Hashing f) (m : List Byte) : Hashing f :=
  let used := x.act.used
  if 0 < used then
    let k := min (f.B - used) m.length
    let buf := x.act.buf ++ m.take k
    let y : Hashing f := { x with act := { x.act with buf := buf, bc := bcAdd f x.act.bc (8 * k) } }
    if buf.length < f.B then y
    else
      let z := compressBlock y buf
      absorbBlocks m.length { z with act := { z.act with buf := [] } } (m.drop k)
  else absorbBlocks m.length x m

/-- INIT of an algorithm, legal in every phase (R200, R202). -/
def initCommand (alg : Alg) (s : State) : Host.Outcome State Fault Refusal :=
  .next ((s.putHashing alg (initStep alg)).setErr .ok)

/-- The bit count of a message of `len` more bytes would reach 2^LW (R209). -/
def tooLong {f : Family} (a : Active f) (len : Nat) : Bool := decide (2 ^ f.LW ≤ a.bc.toNat + 8 * len)

/-- INIT.SHA1 (R200). -/
def execInitSha1 (s : State) : Host.Outcome State Fault Refusal := initCommand .sha1 s

/-- INIT.SHA224 (R200). -/
def execInitSha224 (s : State) : Host.Outcome State Fault Refusal := initCommand .sha224 s

/-- INIT.SHA256 (R200). -/
def execInitSha256 (s : State) : Host.Outcome State Fault Refusal := initCommand .sha256 s

/-- INIT.SHA384 (R200). -/
def execInitSha384 (s : State) : Host.Outcome State Fault Refusal := initCommand .sha384 s

/-- INIT.SHA512 (R200). -/
def execInitSha512 (s : State) : Host.Outcome State Fault Refusal := initCommand .sha512 s

/-- UPDATE (R203): NOT_ACTIVE, RANGE and LENGTH are checked in this order (60_exceptions.md R309), then every byte is
absorbed. -/
def execUpdate (s : State) : Host.Outcome State Fault Refusal :=
  match s.eng.ctx with
  | .invalid => s.raise .notActive
  | .finalized => s.raise .notActive
  | .active alg a =>
    if inRange s.cfg s.src s.len = false then s.raise .range
    else if tooLong a s.len then s.raise .length
    else if plainRange s.cfg s.src s.len = false then .refused .sideEffectMemory
    else .next ((s.putHashing alg (absorbAll ⟨a, s.eng.ccount⟩ s.srcBytes)).setErr .ok)

end Sys2Proof.Machine
end

