-- ==== Sys2Proof/Machine/Finalization.lean ====
section
/-! DEFINITION. FINAL and FINAL.DISCARD: padding, the last compressions, digest extraction and the wipe
(45_finalization.md). -/

namespace Sys2Proof.Machine

/-- n zero bytes. -/
def zeros (n : Nat) : List Byte := List.replicate n 0

/-- The length field, `BE_STORE_L(BC)` (R234). -/
def lengthField {f : Family} (a : Active f) : List Byte := beStore f.L a.bc.toNat

/-- `PAD_AND_COMPRESS()` (R231 to R235): one compression where the 0x80 byte and the length field fit the pending
block, else two. -/
def padAndCompress {f : Family} (x : Hashing f) : Hashing f :=
  let used := x.act.used
  let blk := x.act.buf ++ [0x80]
  if used + 1 ≤ f.B - f.L then compressBlock x (blk ++ zeros (f.B - f.L - used - 1) ++ lengthField x.act)
  else
    let y := compressBlock x (blk ++ zeros (f.B - used - 1))
    compressBlock y (zeros (f.B - f.L) ++ lengthField y.act)

/-- `EXTRACT()`: the first DL bytes of the big-endian words of H (R236). -/
def extract (alg : Alg) (h : Vector (BitVec alg.family.w) alg.family.n) : List Byte :=
  (h.toList.flatMap fun x => beStore (alg.family.w / 8) x.toNat).take alg.DL

/-- The end of FINAL and ONESHOT: pad and compress, write the digest at DST, wipe, report OK (R230, R238). -/
def deliverDigest (alg : Alg) (x : Hashing alg.family) (s : State) : State :=
  let y := padAndCompress x
  let t := { s with
    mem := Memory.writeBytes s.mem s.dst (extract alg y.act.h), eng := { s.eng with ccount := y.ccount } }
  t.wipe.setErr .ok

/-- FINAL (R230). On an ACTIVE context an unusable destination wipes and reports RANGE (R239). -/
def execFinal (s : State) : Host.Outcome State Fault Refusal :=
  match s.eng.ctx with
  | .invalid => s.raise .notActive
  | .finalized => s.raise .notActive
  | .active alg a =>
    if inRange s.cfg s.dst alg.DL = false then s.wipe.raise .range
    else if plainRange s.cfg s.dst alg.DL = false then .refused .sideEffectMemory
    else .next (deliverDigest alg ⟨a, s.eng.ccount⟩ s)

/-- FINAL.DISCARD (R240). -/
def execFinalDiscard (s : State) : Host.Outcome State Fault Refusal :=
  match s.eng.ctx with
  | .invalid => s.raise .notActive
  | .finalized => s.raise .notActive
  | .active _ _ => .next (s.wipe.setErr .ok)

end Sys2Proof.Machine
end

