-- ==== Sys2Proof/Machine/Collaborators.lean ====
section
/-! DEFINITION. ONESHOT and TOHEX (46_collaborators.md). -/

namespace Sys2Proof.Machine

/-- ONESHOT of an algorithm (R260): every operand is checked before anything changes (R261); then INIT, UPDATE and FINAL
in one, every read of the message before every write of the digest (20_memory.md R65). The LENGTH check fires for
LEN ≥ 2^61 where LW is 64, whatever R260's remark says (assumption log 16). -/
def oneshotCommand (alg : Alg) (s : State) : Host.Outcome State Fault Refusal :=
  if inRange s.cfg s.src s.len = false then s.raise .range
  else if inRange s.cfg s.dst alg.DL = false then s.raise .range
  else if 2 ^ alg.family.LW ≤ 8 * s.len then s.raise .length
  else if plainRange s.cfg s.src s.len = false then .refused .sideEffectMemory
  else if plainRange s.cfg s.dst alg.DL = false then .refused .sideEffectMemory
  else .next (deliverDigest alg (absorbAll (initStep alg) s.srcBytes) s)

/-- ONESHOT.SHA1 (R260). -/
def execOneshotSha1 (s : State) : Host.Outcome State Fault Refusal := oneshotCommand .sha1 s

/-- ONESHOT.SHA224 (R260). -/
def execOneshotSha224 (s : State) : Host.Outcome State Fault Refusal := oneshotCommand .sha224 s

/-- ONESHOT.SHA256 (R260). -/
def execOneshotSha256 (s : State) : Host.Outcome State Fault Refusal := oneshotCommand .sha256 s

/-- ONESHOT.SHA384 (R260). -/
def execOneshotSha384 (s : State) : Host.Outcome State Fault Refusal := oneshotCommand .sha384 s

/-- ONESHOT.SHA512 (R260). -/
def execOneshotSha512 (s : State) : Host.Outcome State Fault Refusal := oneshotCommand .sha512 s

/-- TOHEX (R262): all reads first, then the text; the context and CCOUNT are not touched. -/
def execTohex (s : State) : Host.Outcome State Fault Refusal :=
  if inRange s.cfg s.src s.len = false then s.raise .range
  else if inRange s.cfg s.dst (2 * s.len) = false then s.raise .range
  else if overlaps s.src s.len s.dst then s.raise .overlap
  else if plainRange s.cfg s.src s.len = false then .refused .sideEffectMemory
  else if plainRange s.cfg s.dst (2 * s.len) = false then .refused .sideEffectMemory
  else .next ({ s with mem := Memory.writeBytes s.mem s.dst (hexText s.srcBytes) }.setErr .ok)

end Sys2Proof.Machine
end

