-- ==== Sys2Proof/Machine/Dispatch.lean ====
section
/-! DEFINITION. The meaning of each command (30_encoding.md R87). -/

namespace Sys2Proof.Machine

def exec (i : Instr) (s : State) : Host.Outcome State Fault Refusal :=
  match i with
  | .initSha1 => Sys2Proof.Machine.execInitSha1 s
  | .initSha224 => Sys2Proof.Machine.execInitSha224 s
  | .initSha256 => Sys2Proof.Machine.execInitSha256 s
  | .initSha384 => Sys2Proof.Machine.execInitSha384 s
  | .initSha512 => Sys2Proof.Machine.execInitSha512 s
  | .update => Sys2Proof.Machine.execUpdate s
  | .final => Sys2Proof.Machine.execFinal s
  | .finalDiscard => Sys2Proof.Machine.execFinalDiscard s
  | .oneshotSha1 => Sys2Proof.Machine.execOneshotSha1 s
  | .oneshotSha224 => Sys2Proof.Machine.execOneshotSha224 s
  | .oneshotSha256 => Sys2Proof.Machine.execOneshotSha256 s
  | .oneshotSha384 => Sys2Proof.Machine.execOneshotSha384 s
  | .oneshotSha512 => Sys2Proof.Machine.execOneshotSha512 s
  | .tohex => Sys2Proof.Machine.execTohex s

end Sys2Proof.Machine
end

