-- ==== Sys2Proof/Machine/Flags.lean ====
section
/-! DEFINITION. The STATUS word (10_state.md R45) and the views of the context's storage (R54, R55). There are no
flags beside STATUS (R53). -/

namespace Sys2Proof.Machine

/-- `ctx.PHASE`: 0 INVALID, 1 ACTIVE, 2 FINALIZED (R31). -/
def Ctx.phase : Ctx → BitVec 2
  | .invalid => 0
  | .active _ _ => 1
  | .finalized => 2

/-- `ctx.ALG`: the code of the active algorithm, 0 where none is (R32). -/
def Ctx.algCode : Ctx → BitVec 3
  | .invalid => 0
  | .active alg _ => alg.code
  | .finalized => 0

/-- The code of a result (60_exceptions.md R301). -/
def errBits : ErrCode → BitVec 4
  | .ok => 0
  | .badOp => 1
  | .reservedBits => 2
  | .badAlg => 3
  | .notActive => 4
  | .range => 5
  | .length => 6
  | .overlap => 7

/-- STATUS: PHASE in bits 1:0, ALG in 6:4, ERR in 11:8, all other bits 0 (R45). -/
def Engine.status (e : Engine) : W32 :=
  ((0 : BitVec 20) ++ errBits e.err ++ (0 : BitVec 1) ++ e.ctx.algCode ++ (0 : BitVec 2) ++ e.ctx.phase).cast (by decide)

/-- The fields of STATUS (R45). -/
def statusPhase : BitField := ⟨1, 0⟩
def statusAlg : BitField := ⟨6, 4⟩
def statusErr : BitField := ⟨11, 8⟩

/-- `x[hi:lo]`, as an unsigned integer (00_scope.md R11). -/
def fieldValue (f : BitField) (x : Nat) : Nat := x / 2 ^ f.lo % 2 ^ (f.hi + 1 - f.lo)

/-- The words of chaining-value storage as integers: those of H in the ACTIVE shape, all zero in the others (R54,
R55). -/
def Ctx.hWord (c : Ctx) (i : Nat) : Nat :=
  match c with
  | .active _ a => (a.h.toList.map BitVec.toNat).getD i 0
  | .invalid => 0
  | .finalized => 0

/-- The bit counter as an integer: BC in the ACTIVE shape, zero in the others (R54, R55). -/
def Ctx.bcValue : Ctx → Nat
  | .active _ a => a.bc.toNat
  | .invalid => 0
  | .finalized => 0

/-- The pending bytes: BUF in the ACTIVE shape, none in the others (R54, R55). -/
def Ctx.pending : Ctx → List Byte
  | .active _ a => a.buf
  | .invalid => []
  | .finalized => []

end Sys2Proof.Machine
end

