-- ==== Sys2Proof/Machine/HostPort.lean ====
section
/-! DEFINITION. What the host's accesses do: the register block (10_state.md R40 to R48), host memory between
commands (20_memory.md R75), reset (70_reset_and_hazards.md R340, R341) and races (R345). -/

namespace Sys2Proof.Machine

/-- What a legal access to the register block reaches (R40, R47). -/
inductive Register where
  | cmd | arg0 | arg1 | arg2 | status | ccount | reserved
deriving DecidableEq, Repr

/-- The register that an access of `w` bytes at offset `off` reaches; none for a partial-width, wider or misaligned
access, which has no meaning (R48, U5). Reserved offsets: R47, assumption log 6. -/
def registerAt (off : BitVec 6) (w : Nat) : Option Register :=
  if w = 4 then
    if off = 0x00 then some .cmd
    else if off = 0x20 then some .status
    else if off = 0x04 ∨ off = 0x0C ∨ off = 0x14 ∨ off = 0x1C ∨ off = 0x24 ∨ off = 0x2C then some .reserved
    else if off = 0x30 ∨ off = 0x34 ∨ off = 0x38 ∨ off = 0x3C then some .reserved
    else none
  else if w = 8 then
    if off = 0x08 then some .arg0
    else if off = 0x10 then some .arg1
    else if off = 0x18 then some .arg2
    else if off = 0x28 then some .ccount
    else if off = 0x30 ∨ off = 0x38 then some .reserved
    else none
  else none

/-- A command word written to CMD of the addressed instance (R41): it is decoded first (30_encoding.md R92); one that
does not decode changes STATUS.ERR only (R88). -/
def commandWrite (v : W32) (s : State) : Host.Outcome State Fault Refusal :=
  match decode s.cfg.hasDiscard v with
  | .error e => s.raise e
  | .ok i => exec i s

/-- A write of `v` to a register of the addressed instance: STATUS, CCOUNT and the reserved offsets ignore it (R40,
R45 to R47). CMD takes the low 32 bits of `v`, all that a 4-byte access carries (DESIGN CHOICE, assumption log 18). -/
def writeRegister (r : Register) (v : W64) (s : State) : Host.Outcome State Fault Refusal :=
  match r with
  | .cmd => commandWrite (v.setWidth 32) s
  | .arg0 => .next { s with eng := { s.eng with arg0 := v } }
  | .arg1 => .next { s with eng := { s.eng with arg1 := v } }
  | .arg2 => .next { s with eng := { s.eng with arg2 := v } }
  | .status => .next s
  | .ccount => .next s
  | .reserved => .next s

/-- What a read of a register returns (R40 to R47); H, BC and BUF are behind none of them (R49). -/
def readRegister (r : Register) (e : Engine) : W64 :=
  match r with
  | .cmd => 0
  | .arg0 => e.arg0
  | .arg1 => e.arg1
  | .arg2 => e.arg2
  | .status => e.status.setWidth 64
  | .ccount => e.ccount
  | .reserved => 0

/-- The host address `a` lies in the register block of some instance (R47, R73). -/
def inRegisterBlock (c : Config) (a : Nat) : Bool := c.regBase.any fun b => decide (b ≤ a) && decide (a < b + 0x40)

/-- The bytes that command `i` writes when it is accepted: their first address and their number (R64). -/
def storeRange (i : Instr) (s : State) : Nat × Nat :=
  match i with
  | .final =>
    match s.eng.ctx with
    | .active alg _ => (s.dst, alg.DL)
    | .invalid => (s.dst, 0)
    | .finalized => (s.dst, 0)
  | .oneshotSha1 => (s.dst, Alg.sha1.DL)
  | .oneshotSha224 => (s.dst, Alg.sha224.DL)
  | .oneshotSha256 => (s.dst, Alg.sha256.DL)
  | .oneshotSha384 => (s.dst, Alg.sha384.DL)
  | .oneshotSha512 => (s.dst, Alg.sha512.DL)
  | .tohex => (s.dst, 2 * s.len)
  | .initSha1 | .initSha224 | .initSha256 | .initSha384 | .initSha512 => (s.dst, 0)
  | .update => (s.dst, 0)
  | .finalDiscard => (s.dst, 0)

/-- The addressed instance takes its reset state; host memory and the other instances do not change (R340, R341). -/
def resetEngine (s : State) : State := { s with eng := Engine.reset }

/-- A reset while the command `v` runs (R341, U10): each byte the command writes holds a free value, and the instance
is in its reset state. -/
def resetDuringCommand (v : W32) (s : State) : Host.Outcome State Fault Refusal :=
  match decode s.cfg.hasDiscard v with
  | .error _ => .next (resetEngine s)
  | .ok i =>
    match exec i s with
    | .next t =>
      if t.eng.err = .ok then
        .next (resetEngine (s.scramble ((List.range (storeRange i s).2).map fun j => (storeRange i s).1 + j)))
      else .next (resetEngine s)
    | .fault r => .fault r
    | .refused r => .refused r

/-- The command `v` while another agent writes the bytes at `addrs` (R75, R345, U8): whatever the command reads there
and whatever is there afterwards is a free value. Racing on side-effecting memory is refused (assumption log 9). -/
def racedCommand (v : W32) (addrs : List Nat) (s : State) : Host.Outcome State Fault Refusal :=
  if addrs.all fun a => decide (a < 2 ^ s.cfg.addrW) then
    if addrs.all fun a => plainRange s.cfg a 1 then
      match commandWrite v (s.scramble addrs) with
      | .next t => .next (t.scramble addrs)
      | .fault r => .fault r
      | .refused r => .refused r
    else .refused .sideEffectMemory
  else .fault .noSuchAddress

/-- An action on instance `k`: it becomes the addressed instance, if the platform holds it. -/
def onInstance (k : Nat) (act : State → Host.Outcome State Fault Refusal) (s : State) :
    Host.Outcome State Fault Refusal :=
  match s.select k with
  | none => .fault .noSuchInstance
  | some t => act t

/-- A register access, if it is a legal one (R48). -/
def onRegister (off : BitVec 6) (w : Nat) (act : Register → State → Host.Outcome State Fault Refusal) (s : State) :
    Host.Outcome State Fault Refusal :=
  match registerAt off w with
  | none => .refused .registerAccess
  | some r => act r s

/-- A host byte access to address `a` of host memory; inside a register block it is a partial-width register access
(U5, assumption log 7), at or above 2^ADDR_W it reaches nothing. R72 and U6 speak of a command's accesses only; the
model refuses the host's own access to side-effecting memory too (DESIGN CHOICE, assumption log 9). -/
def onHostByte (a : Nat) (act : State → State) (s : State) : Host.Outcome State Fault Refusal :=
  if inRegisterBlock s.cfg a then .refused .registerAccess
  else if a < 2 ^ s.cfg.addrW then if plainRange s.cfg a 1 then .next (act s) else .refused .sideEffectMemory
  else .fault .noSuchAddress

/-- `CHECK`: whether the field of the register has the value is recorded, and the engine is not touched (30_encoding.md
R93). The host goes on either way (DESIGN CHOICE, assumption log 17). -/
def checkRegister (f : BitField) (v : Nat) (r : Register) (s : State) : State :=
  { s with checks := s.checks ++ [decide (fieldValue f (readRegister r s.eng).toNat = v)] }

/-- What one host action does. -/
def perform (act : HostAction) (s : State) : Host.Outcome State Fault Refusal :=
  match act with
  | .regWrite k off w v => onInstance k (onRegister off w fun r t => writeRegister r v t) s
  | .regRead k off w =>
    onInstance k (onRegister off w fun r t => .next { t with rdata := some (readRegister r t.eng) }) s
  | .check k off w f v => onInstance k (onRegister off w fun r t => .next (checkRegister f v r t)) s
  | .memWrite a b => onHostByte a (fun t => { t with mem := Memory.write t.mem a b }) s
  | .memRead a => onHostByte a (fun t => { t with rdata := some ((Memory.read t.mem a).setWidth 64) }) s
  | .reset k => onInstance k (fun t => .next (resetEngine t)) s
  | .resetDuring k v => onInstance k (resetDuringCommand v) s
  | .race k v addrs => onInstance k (racedCommand v addrs) s

end Sys2Proof.Machine
end

