-- ==== Sys2Proof/Machine/Step.lean ====
section
/-! DEFINITION. One step: the host's next action. There is no program counter and no instruction fetch; the order of
execution is the order in which the host issues commands (10_state.md R39). -/

namespace Sys2Proof.Machine

/-- The oldest action of the queue leaves it and is performed. With none the engine is idle and all of its state is
retained (60_exceptions.md R334). -/
def step (s : State) : Host.Outcome State Fault Refusal :=
  match s.queue with
  | [] => .next s
  | act :: rest => perform act { s with queue := rest }

/-- The state in which the host's next action is the write of the command word `w` (of `nbits` bits) to CMD of the
addressed instance (assumption log 2). -/
def State.withFetchWord (s : State) (nbits w : Nat) : State :=
  let v := w % 2 ^ nbits
  { s with queue := .regWrite s.cur 0x00 (if v < 2 ^ 32 then 4 else 8) (BitVec.ofNat 64 v) :: s.queue }

end Sys2Proof.Machine
end

