-- ==== Sys2Proof/Machine/HostProgram.lean ====
section
/-! DEFINITION. Host programs: the text form of 30_encoding.md R93 and its pseudo-instructions (R94): the host memory
before the program starts, and the host actions each line stands for (assumption log 17). -/

namespace Sys2Proof.Machine

/-- The offset and access width of a register (10_state.md R40); of the reserved offsets, the first free one. -/
def Register.place : Register → BitVec 6 × Nat
  | .cmd => (0x00, 4)
  | .arg0 => (0x08, 8)
  | .arg1 => (0x10, 8)
  | .arg2 => (0x18, 8)
  | .status => (0x20, 4)
  | .ccount => (0x28, 8)
  | .reserved => (0x30, 8)

/-- A description of host memory before the program starts (R93). -/
inductive MemoryLine where
  /-- `.byte a: b0 b1 ...` -/
  | byte (a : Nat) (bs : List Byte)
  /-- `.ascii a: "text"` -/
  | ascii (a : Nat) (text : List Char)
deriving DecidableEq, Repr

/-- One line of a host program. `src`, `len` and `dst` are the optional operand list. -/
inductive HostLine where
  | command (i : Instr) (src len dst : Option W64)
  | wr (r : Register) (v : W64)
  | rd (r : Register)
  /-- `CHECK r[f] == v` -/
  | check (r : Register) (f : BitField) (v : Nat)
  | hash (alg : Alg) (src len dst : W64)
  | wipe
  | updateEmpty
deriving DecidableEq, Repr

/-- A host program (R93). -/
structure HostProgram where
  memory : List MemoryLine
  lines : List HostLine
deriving DecidableEq, Repr

/-- The address a memory line starts at. -/
def MemoryLine.start : MemoryLine → Nat
  | .byte a _ => a
  | .ascii a _ => a

/-- The bytes a memory line places. -/
def MemoryLine.bytes : MemoryLine → List Byte
  | .byte _ bs => bs
  | .ascii _ text => text.map fun c => BitVec.ofNat 8 c.toNat

/-- A memory line a machine of configuration `c` can start with: ASCII text, and bytes of plain memory that exist. -/
def MemoryLine.wf (c : Config) (m : MemoryLine) : Bool :=
  inRange c m.start m.bytes.length && plainRange c m.start m.bytes.length &&
    match m with
    | .byte _ _ => true
    | .ascii _ text => text.all fun ch => decide (ch.toNat < 128)

/-- Host memory with the bytes of the lines in place, a later line over an earlier one. -/
def placeMemory (m : Memory) (ls : List MemoryLine) : Memory :=
  ls.foldl (fun m l => Memory.writeBytes m l.start l.bytes) m

/-- A line that exists under `HAS_DISCARD` = `hasDiscard`: WIPE only if it is true (R94); WR, RD and CHECK name a
register of R40. A FINAL.DISCARD line is the write of its word in every configuration (R93). -/
def HostLine.wf (hasDiscard : Bool) : HostLine → Bool
  | .command _ _ _ _ => true
  | .wr r _ => r != .reserved
  | .rd r => r != .reserved
  | .check r f _ => r != .reserved && decide (f.lo ≤ f.hi) && decide (f.hi < 8 * r.place.2)
  | .hash _ _ _ _ => true
  | .wipe => hasDiscard
  | .updateEmpty => true

/-- `WR r, v` on instance `k`. -/
def writeLine (k : Nat) (r : Register) (v : W64) : HostAction := .regWrite k r.place.1 r.place.2 v

/-- The write of an operand the line gives; an omitted one leaves its register unchanged (R93). -/
def operandWrite (k : Nat) (r : Register) (v : Option W64) : List HostAction := v.toList.map (writeLine k r)

/-- A command line: the operands in the order ARG0, ARG1, ARG2, then the command word (R93). -/
def commandLine (k : Nat) (i : Instr) (src len dst : Option W64) : List HostAction :=
  operandWrite k .arg0 src ++ operandWrite k .arg1 len ++ operandWrite k .arg2 dst ++
    [writeLine k .cmd ((encode i).setWidth 64)]

/-- The host actions of a line that exists, for instance `k` (R93, R94). -/
def HostLine.actions (k : Nat) : HostLine → List HostAction
  | .command i src len dst => commandLine k i src len dst
  | .wr r v => [writeLine k r v]
  | .rd r => [.regRead k r.place.1 r.place.2]
  | .check r f v => [.check k r.place.1 r.place.2 f v]
  | .hash alg src len dst =>
    commandLine k (.initOf alg) none none none ++ commandLine k .update (some src) (some len) none ++
      commandLine k .final none none (some dst)
  | .wipe => commandLine k .finalDiscard none none none
  | .updateEmpty => commandLine k .update none (some 0) none

/-- The host actions of a line; none for a line that does not exist. -/
def HostLine.expand (hasDiscard : Bool) (k : Nat) (l : HostLine) : Option (List HostAction) :=
  if l.wf hasDiscard then some (l.actions k) else none

/-- Every line of the program exists, and its memory is memory of the machine. -/
def HostProgram.wf (c : Config) (p : HostProgram) : Bool :=
  p.memory.all (MemoryLine.wf c) && p.lines.all (HostLine.wf c.hasDiscard)

/-- The state in which the host is about to run a program on instance `k`: its memory is in place and its lines'
actions are the queue. None for a program that is not one of this machine. -/
def State.withProgram (s : State) (k : Nat) (p : HostProgram) : Option State :=
  if p.wf s.cfg then some { s with mem := placeMemory s.mem p.memory, queue := p.lines.flatMap (HostLine.actions k) }
  else none

end Sys2Proof.Machine
end

