-- ==== Sys2Proof/Machine/Hash.lean ====
section
/-! DEFINITION. The hash function that the streaming commands compute (45_finalization.md R242, R243): the reference
the claims about UPDATE, FINAL and ONESHOT are stated against. No step calls it. -/

namespace Sys2Proof.Machine

/-- z of R242: the zero bytes that bring `N + 1 + z + L` to a multiple of B. -/
def padZeros (f : Family) (N : Nat) : Nat := (f.B - (N + 1 + f.L) % f.B) % f.B

/-- `pad(M)` (R242). -/
def pad (f : Family) (M : List Byte) : List Byte :=
  M ++ [0x80] ++ zeros (padZeros f M.length) ++ beStore f.L (8 * M.length)

/-- The complete B-byte blocks of a byte sequence, in order. -/
def blocksOf (f : Family) (M : List Byte) : List (List Byte) :=
  (List.range (M.length / f.B)).map fun k => (M.drop (k * f.B)).take f.B

/-- `H <- COMPRESS_f(H, blk)` for each block in order (R243). -/
def foldBlocks (f : Family) (h : Vector (BitVec f.w) f.n) (bs : List (List Byte)) : Vector (BitVec f.w) f.n :=
  bs.foldl (compress f) h

/-- `HASH_a(M)` (R243). -/
def hash (alg : Alg) (M : List Byte) : List Byte :=
  extract alg (foldBlocks alg.family (iv alg) (blocksOf alg.family (pad alg.family M)))

/-- The compressions that end a message of N bytes (R235): two where the length field does not fit the last block. -/
def finalCompressions (f : Family) (N : Nat) : Nat := if N % f.B ≤ f.B - f.L - 1 then 1 else 2

end Sys2Proof.Machine
end

