-- ==== Sys2Proof/Safety.lean ====
section
/-! DEFINITION. What the claims call a sound state and a proper host action. -/

namespace Sys2Proof.Machine

/-- The ACTIVE context `a` of `alg` is that of the absorbed message `M` (10_state.md R37): BC counts M's bits and stays
below 2^LW, H is the initial value folded over M's complete blocks, BUF holds M's bytes after them. -/
structure Represents (alg : Alg) (M : List Byte) (a : Active alg.family) : Prop where
  short : 8 * M.length < 2 ^ alg.family.LW
  bc : a.bc.toNat = 8 * M.length
  h : a.h = foldBlocks alg.family (iv alg) (blocksOf alg.family M)
  buf : a.buf = M.drop (M.length / alg.family.B * alg.family.B)

/-- A context is sound: an ACTIVE one is that of some message (R37). -/
def Ctx.Sound : Ctx → Prop
  | .invalid => True
  | .active alg a => ∃ M, Represents alg M a
  | .finalized => True

/-- The invariant of the machine: canonical memory inside the address space (R60), as many instances as the
configuration has (R331), the addressed one among them, every context sound (R37). -/
structure State.Sound (s : State) : Prop where
  memWf : Memory.wf s.mem = true
  memBound : ∀ c ∈ s.mem, c.1 < 2 ^ s.cfg.addrW
  curLe : s.cur ≤ s.parked.length
  count : s.parked.length + 1 = s.cfg.nEngines
  ctx : ∀ e ∈ s.engines, e.ctx.Sound

/-- The engine instance a host action is on; host memory accesses are on none. -/
def instanceOf : HostAction → Option Nat
  | .regWrite k _ _ _ => some k
  | .regRead k _ _ => some k
  | .check k _ _ _ _ => some k
  | .memWrite _ _ => none
  | .memRead _ => none
  | .reset k => some k
  | .resetDuring k _ => some k
  | .race k _ _ => some k

/-- A host action the spec gives a meaning: on an instance the platform holds (R331), whole-register and aligned (R48),
and to host memory only at addresses that exist and are not a register block's (R60, R61). -/
def proper (c : Config) : HostAction → Bool
  | .regWrite k off w _ => decide (k < c.nEngines) && (registerAt off w).isSome
  | .regRead k off w => decide (k < c.nEngines) && (registerAt off w).isSome
  | .check k off w _ _ => decide (k < c.nEngines) && (registerAt off w).isSome
  | .memWrite a _ => !inRegisterBlock c a && decide (a < 2 ^ c.addrW)
  | .memRead a => !inRegisterBlock c a && decide (a < 2 ^ c.addrW)
  | .reset k => decide (k < c.nEngines)
  | .resetDuring k _ => decide (k < c.nEngines)
  | .race k _ addrs => decide (k < c.nEngines) && addrs.all fun a => decide (a < 2 ^ c.addrW)

/-- `n` steps from `s` neither fault nor are refused. -/
def SafeRun (n : Nat) (s : State) : Prop := ∃ t, Host.Core.run core n s = .next t

/-- The bytes command `i` reads when it is accepted: their first address and their number (R64). -/
def readRange (i : Instr) (s : State) : Nat × Nat :=
  match i with
  | .update | .tohex => (s.src, s.len)
  | .oneshotSha1 | .oneshotSha224 | .oneshotSha256 | .oneshotSha384 | .oneshotSha512 => (s.src, s.len)
  | .initSha1 | .initSha224 | .initSha256 | .initSha384 | .initSha512 => (s.src, 0)
  | .final | .finalDiscard => (s.src, 0)

end Sys2Proof.Machine
end

