-- ==== Sys2Proof/Certificates/Slice0/Obligations.lean ====
section
/-! DEFINITION. The statements about the engine, rule by rule, with the few terms they need that are written from the
spec independently of the model's own definitions. -/

open Sys2Proof Sys2Proof.Machine

namespace Sys2Proof

/-! ### Terms of the statements -/

/-- The command map of 30_encoding.md R87, as the spec prints it. -/
def printedWord : Instr → W32
  | .initSha1 => 0x00000011
  | .initSha224 => 0x00000021
  | .initSha256 => 0x00000031
  | .initSha384 => 0x00000041
  | .initSha512 => 0x00000051
  | .update => 0x00000002
  | .final => 0x00000003
  | .finalDiscard => 0x00000083
  | .oneshotSha1 => 0x00000014
  | .oneshotSha224 => 0x00000024
  | .oneshotSha256 => 0x00000034
  | .oneshotSha384 => 0x00000044
  | .oneshotSha512 => 0x00000054
  | .tohex => 0x00000005

/-- The digest lengths in bytes, as 45_finalization.md R236 prints them. -/
def printedDL : Alg → Nat
  | .sha1 => 20
  | .sha224 => 28
  | .sha256 => 32
  | .sha384 => 48
  | .sha512 => 64

/-- The error codes, as 60_exceptions.md R301 prints them. -/
def printedErr : ErrCode → Nat
  | .ok => 0
  | .badOp => 1
  | .reservedBits => 2
  | .badAlg => 3
  | .notActive => 4
  | .range => 5
  | .length => 6
  | .overlap => 7

/-- The algorithm codes, as 30_encoding.md R84 prints them. -/
def printedAlg : Alg → Nat
  | .sha1 => 1
  | .sha224 => 2
  | .sha256 => 3
  | .sha384 => 4
  | .sha512 => 5

/-- B, the block size in bytes, as 00_scope.md R8 prints it. -/
def printedB : Family → Nat
  | .e1 => 64
  | .e256 => 64
  | .e512 => 128

/-- L, the length-field size in bytes, as R8 prints it. -/
def printedL : Family → Nat
  | .e1 => 8
  | .e256 => 8
  | .e512 => 16

/-- The host actions of a host program's line that exists, with offsets and widths as 10_state.md R40 prints them and
words as R87 does (30_encoding.md R93, R94). WR, RD and CHECK of no register of R40 are no lines. -/
def printedActions (k : Nat) : HostLine → List HostAction :=
  let cmd (i : Instr) : HostAction := .regWrite k 0x00 4 ((printedWord i).setWidth 64)
  let set (off : BitVec 6) (v : W64) : HostAction := .regWrite k off 8 v
  fun
  | .command i src len dst => src.toList.map (set 0x08) ++ len.toList.map (set 0x10) ++ dst.toList.map (set 0x18) ++ [cmd i]
  | .wr .cmd v => [.regWrite k 0x00 4 v]
  | .wr .arg0 v => [.regWrite k 0x08 8 v]
  | .wr .arg1 v => [.regWrite k 0x10 8 v]
  | .wr .arg2 v => [.regWrite k 0x18 8 v]
  | .wr .status v => [.regWrite k 0x20 4 v]
  | .wr .ccount v => [.regWrite k 0x28 8 v]
  | .wr .reserved _ => []
  | .rd .cmd => [.regRead k 0x00 4]
  | .rd .arg0 => [.regRead k 0x08 8]
  | .rd .arg1 => [.regRead k 0x10 8]
  | .rd .arg2 => [.regRead k 0x18 8]
  | .rd .status => [.regRead k 0x20 4]
  | .rd .ccount => [.regRead k 0x28 8]
  | .rd .reserved => []
  | .check .cmd f v => [.check k 0x00 4 f v]
  | .check .arg0 f v => [.check k 0x08 8 f v]
  | .check .arg1 f v => [.check k 0x10 8 f v]
  | .check .arg2 f v => [.check k 0x18 8 f v]
  | .check .status f v => [.check k 0x20 4 f v]
  | .check .ccount f v => [.check k 0x28 8 f v]
  | .check .reserved _ _ => []
  | .hash .sha1 src len dst => [cmd .initSha1, set 0x08 src, set 0x10 len, cmd .update, set 0x18 dst, cmd .final]
  | .hash .sha224 src len dst => [cmd .initSha224, set 0x08 src, set 0x10 len, cmd .update, set 0x18 dst, cmd .final]
  | .hash .sha256 src len dst => [cmd .initSha256, set 0x08 src, set 0x10 len, cmd .update, set 0x18 dst, cmd .final]
  | .hash .sha384 src len dst => [cmd .initSha384, set 0x08 src, set 0x10 len, cmd .update, set 0x18 dst, cmd .final]
  | .hash .sha512 src len dst => [cmd .initSha512, set 0x08 src, set 0x10 len, cmd .update, set 0x18 dst, cmd .final]
  | .wipe => [cmd .finalDiscard]
  | .updateEmpty => [set 0x10 0, cmd .update]

/-- A prime number, by trial division. -/
def isPrime (p : Nat) : Bool := decide (2 ≤ p) && (List.range p).all fun d => decide (d < 2) || p % d != 0

/-- The primes below 410 in order: p_1 = 2, …, p_80 = 409 (R138). -/
def firstPrimes : List Nat := (List.range 410).filter isPrime

/-- `r` is the integer part of the e-th root of `N`. -/
abbrev IsFloorRoot (e r N : Nat) : Prop := r ^ e ≤ N ∧ N < (r + 1) ^ e

/-- The characters '0' to '9' and 'a' to 'f' in ASCII, by value (46_collaborators.md R263). -/
def hexDigits : List Byte :=
  [0x30, 0x31, 0x32, 0x33, 0x34, 0x35, 0x36, 0x37, 0x38, 0x39, 0x61, 0x62, 0x63, 0x64, 0x65, 0x66]

/-- The bytes that pairs of hex characters stand for, high nibble first. -/
def unhex : List Byte → List Byte
  | c :: d :: rest => BitVec.ofNat 8 (16 * hexDigits.idxOf c + hexDigits.idxOf d) :: unhex rest
  | _ => []

/-- A state with the operands in place. -/
def withOperands (s : State) (src len dst : W64) : State :=
  { s with eng := { s.eng with arg0 := src, arg1 := len, arg2 := dst } }

/-- The range leaves the address space (20_memory.md R63). -/
abbrev LeavesSpace (s : State) (a n : Nat) : Prop := 0 < n ∧ 2 ^ s.cfg.addrW < a + n

/-- Some byte of the range has side effects (20_memory.md R72). -/
abbrev MeetsDevice (s : State) (a n : Nat) : Prop :=
  ∃ x, a ≤ x ∧ x < a + n ∧ ∃ r ∈ s.cfg.sideEffect, r.base ≤ x ∧ x < r.base + r.size

/-- The state in which only the addressed engine's context, CCOUNT and STATUS.ERR differ from those of `s`. -/
def withEngine (s : State) (c : Ctx) (cc : W64) (e : ErrCode) : State :=
  { s with eng := { s.eng with ctx := c, ccount := cc, err := e } }

/-- The commands that leave the context FINALIZED. -/
def finalizing : List Instr :=
  [.final, .finalDiscard, .oneshotSha1, .oneshotSha224, .oneshotSha256, .oneshotSha384, .oneshotSha512]

/-- The INIT commands. -/
def initializing : List Instr := [.initSha1, .initSha224, .initSha256, .initSha384, .initSha512]

/-- E1's compression with each schedule word taken from the eager table. -/
def eagerCompress1 (H : Vector W32 5) (blk : List Byte) : Vector W32 5 :=
  feedForward H ((List.range 80).foldl (fun r t => roundStep1 r t (eagerWord .e1 (wordsOf 32 blk) t)) (Work5.load H)).toVector

/-- E256's compression with each schedule word taken from the eager table. -/
def eagerCompress256 (H : Vector W32 8) (blk : List Byte) : Vector W32 8 :=
  feedForward H ((List.range 64).foldl (fun r t =>
    roundStep2 bigSigma0of256 bigSigma1of256 r (k256.getD t 0) (eagerWord .e256 (wordsOf 32 blk) t)) (Work8.load H)).toVector

/-- E512's compression with each schedule word taken from the eager table. -/
def eagerCompress512 (H : Vector W64 8) (blk : List Byte) : Vector W64 8 :=
  feedForward H ((List.range 80).foldl (fun r t =>
    roundStep2 bigSigma0of512 bigSigma1of512 r (k512.getD t 0) (eagerWord .e512 (wordsOf 64 blk) t)) (Work8.load H)).toVector

end Sys2Proof

/-! ### Encoding -/

/-- The fourteen words 30_encoding.md R87 prints decode to their commands. -/
def Obligations.TableWordsDecode : Prop :=
  decode true 0x00000011 = .ok .initSha1 ∧ decode true 0x00000021 = .ok .initSha224 ∧
    decode true 0x00000031 = .ok .initSha256 ∧ decode true 0x00000041 = .ok .initSha384 ∧
    decode true 0x00000051 = .ok .initSha512 ∧ decode true 0x00000002 = .ok .update ∧
    decode true 0x00000003 = .ok .final ∧ decode true 0x00000083 = .ok .finalDiscard ∧
    decode true 0x00000014 = .ok .oneshotSha1 ∧ decode true 0x00000024 = .ok .oneshotSha224 ∧
    decode true 0x00000034 = .ok .oneshotSha256 ∧ decode true 0x00000044 = .ok .oneshotSha384 ∧
    decode true 0x00000054 = .ok .oneshotSha512 ∧ decode true 0x00000005 = .ok .tohex

/-- R87, R88: the decoder reads a command from its own table word and from no other of the 2^32 words; FINAL.DISCARD
only under HAS_DISCARD. -/
def Obligations.DecoderReadsExactlyTheTableWords : Prop :=
  ∀ (d : Bool) (v : W32) (i : Instr), decode d v = .ok i ↔ v = printedWord i ∧ i.wf d = true

/-- R92, with the word's fields written as integer arithmetic: which error each illegal word gives, in the order of the
checks, and that every other word decodes, to the command whose word R87 prints with those fields. -/
def Obligations.DecodeErrorsFollowTheCheckOrder : Prop :=
  ∀ (d : Bool) (v : W32),
    let op := v.toNat % 16
    let alg := v.toNat / 16 % 8
    let disc := v.toNat / 128 % 2
    let rsv := v.toNat / 256
    let badOp := op = 0 ∨ 6 ≤ op
    let reserved := rsv ≠ 0 ∨ ((op = 2 ∨ op = 3 ∨ op = 5) ∧ alg ≠ 0) ∨ (op ≠ 3 ∧ disc = 1) ∨
      (op = 3 ∧ disc = 1 ∧ d = false)
    let badAlg := (op = 1 ∨ op = 4) ∧ (alg = 0 ∨ 6 ≤ alg)
    (badOp → decode d v = .error .badOp) ∧
      (¬badOp → reserved → decode d v = .error .reservedBits) ∧
      (¬badOp → ¬reserved → badAlg → decode d v = .error .badAlg) ∧
      (¬badOp → ¬reserved → ¬badAlg → ∃ i, decode d v = .ok i ∧ v = printedWord i)

/-- Decoding the encoding of a well-formed command gives it back, and the encoding is the table's word. -/
def Obligations.DecodeInvertsEncode : Prop :=
  ∀ (d : Bool) (i : Instr), encode i = printedWord i ∧ (i.wf d = true → decode d (encode i) = .ok i)

/-- R88: a word that is no command of the table raises the one decoder error that decoding gives it and changes nothing
but STATUS.ERR; FINAL.DISCARD's word without HAS_DISCARD is such a word, and its error is RESERVED_BITS. -/
def Obligations.IllegalWordChangesOnlyErr : Prop :=
  ∀ (v : W32) (s : State), (∀ i : Instr, i.wf s.cfg.hasDiscard = true → v ≠ printedWord i) →
    ∃ e : ErrCode, (e = .badOp ∨ e = .reservedBits ∨ e = .badAlg) ∧ decode s.cfg.hasDiscard v = .error e ∧
      (v = 0x00000083 → e = .reservedBits) ∧ commandWrite v s = .next { s with eng := { s.eng with err := e } }

/-- 10_state.md R39, R41: when the host's next action writes a command word to CMD of an instance, the step is the
command's own effect on that instance; `withFetchWord` makes a word the next one. That a 4-byte write of a value of 2^32
or more runs the word of its low 32 bits is the model's choice (DESIGN CHOICE, assumption log 18), and so are the queue
and `withFetchWord` (assumption log 2). -/
def Obligations.StepRunsTheDecodedCommand : Prop :=
  (∀ (s t : State) (k : Nat) (v : W64) (rest : List HostAction) (i : Instr),
      s.queue = .regWrite k 0x00 4 v :: rest → State.select k { s with queue := rest } = some t →
      decode s.cfg.hasDiscard (v.setWidth 32) = .ok i → step s = exec i t) ∧
    ∀ (s : State) (w : Nat) (i : Instr), w < 2 ^ 32 → decode s.cfg.hasDiscard (BitVec.ofNat 32 w) = .ok i →
      step (s.withFetchWord 32 w) = exec i s

/-! ### Word primitives and constants -/

/-- 40_word_primitives.md R104, R105: bit i of ROTR^k(x) is bit (i + k) mod w of x, and ROTL^k is ROTR^(w-k). -/
def Obligations.RotationsMoveBits : Prop :=
  ∀ (w k : Nat) (x : BitVec w), 0 < k → k < w →
    (∀ i, i < w → (rotr k x).getLsbD i = x.getLsbD ((i + k) % w)) ∧ rotl k x = rotr (w - k) x

/-- R109 to R111 by bits: Ch chooses y's bit where x's bit is 1 and z's bit where it is 0, Maj takes the majority,
Parity the parity. -/
def Obligations.BooleanFunctionsByBit : Prop :=
  (∀ (w : Nat) (x y z : BitVec w) (i : Nat), i < w →
      (ch x y z).getLsbD i = (if x.getLsbD i then y.getLsbD i else z.getLsbD i) ∧
        (maj x y z).getLsbD i =
          decide (2 ≤ (x.getLsbD i).toNat + (y.getLsbD i).toNat + (z.getLsbD i).toNat)) ∧
    ∀ (x y z : W32) (i : Nat), i < 32 →
      (parity x y z).getLsbD i =
        decide (((x.getLsbD i).toNat + (y.getLsbD i).toNat + (z.getLsbD i).toNat) % 2 = 1)

/-- R112 to R119 by bits: each Σ is three rotations, so bit i is the XOR of three bits of x, indices modulo w; in each σ
the third term is a shift, whose bit is 0 where the index leaves the word. -/
def Obligations.SigmaFunctionsByBit : Prop :=
  let rot3 (w j k l : Nat) (x : BitVec w) (i : Nat) : Bool :=
    (x.getLsbD ((i + j) % w) ^^ x.getLsbD ((i + k) % w)) ^^ x.getLsbD ((i + l) % w)
  let rot2shift (w j k l : Nat) (x : BitVec w) (i : Nat) : Bool :=
    (x.getLsbD ((i + j) % w) ^^ x.getLsbD ((i + k) % w)) ^^ (decide (i + l < w) && x.getLsbD (i + l))
  (∀ (x : W32) (i : Nat), i < 32 →
      (bigSigma0of256 x).getLsbD i = rot3 32 2 13 22 x i ∧ (bigSigma1of256 x).getLsbD i = rot3 32 6 11 25 x i ∧
        (smallSigma0of256 x).getLsbD i = rot2shift 32 7 18 3 x i ∧
        (smallSigma1of256 x).getLsbD i = rot2shift 32 17 19 10 x i) ∧
    ∀ (x : W64) (i : Nat), i < 64 →
      (bigSigma0of512 x).getLsbD i = rot3 64 28 34 39 x i ∧ (bigSigma1of512 x).getLsbD i = rot3 64 14 18 41 x i ∧
        (smallSigma0of512 x).getLsbD i = rot2shift 64 1 8 7 x i ∧
        (smallSigma1of512 x).getLsbD i = rot2shift 64 19 61 6 x i

/-- R120, R121: BE_STORE_k has k bytes, the j-th of them v div 256^(k-1-j) mod 256, and BE_LOAD and BE_STORE_k undo each
other. -/
def Obligations.BigEndianRoundTrips : Prop :=
  (∀ (k v : Nat), (beStore k v).length = k ∧
      ∀ j, j < k → (beStore k v)[j]? = some (BitVec.ofNat 8 (v / 256 ^ (k - 1 - j)))) ∧
    (∀ (k v : Nat), v < 2 ^ (8 * k) → beLoad (beStore k v) = v) ∧
    ∀ s : List Byte, beStore s.length (beLoad s) = s

/-- 41_constants.md R138: the SHA-2 constants are the first bits of the fractional parts of cube and square roots of
primes, and K1 of square roots of 2, 3, 5, 10. -/
def Obligations.ConstantsAreFractionalRoots : Prop :=
  (∀ t, t < 80 → ∃ r, IsFloorRoot 3 r (firstPrimes.getD t 0 * 2 ^ 192) ∧ k512.getD t 0 = BitVec.ofNat 64 r) ∧
    (∀ t, t < 64 → k256.getD t 0 = BitVec.ofNat 32 ((k512.getD t 0).toNat / 2 ^ 32)) ∧
    (∀ i : Fin 8, ∃ r, IsFloorRoot 2 r (firstPrimes.getD i 0 * 2 ^ 128) ∧ ivSha512[i] = BitVec.ofNat 64 r) ∧
    (∀ i : Fin 8, ∃ r, IsFloorRoot 2 r (firstPrimes.getD (i + 8) 0 * 2 ^ 128) ∧ ivSha384[i] = BitVec.ofNat 64 r) ∧
    (∀ i : Fin 8, ivSha256[i] = BitVec.ofNat 32 (ivSha512[i].toNat / 2 ^ 32)) ∧
    (∀ i : Fin 8, ivSha224[i] = BitVec.ofNat 32 ivSha384[i].toNat) ∧
    ∀ j, j < 4 → IsFloorRoot 2 (k1.getD j 0).toNat ([2, 3, 5, 10].getD j 0 * 2 ^ 60)

/-! ### Schedule and compression -/

/-- 42_schedule.md R155: in every round of every family the circular buffer yields the eager table's word. -/
def Obligations.CircularScheduleEqualsEager : Prop :=
  ∀ (f : Family) (M : W16 f.w) (t : Nat), t < f.rounds → sched f M t = eagerWord f M t

/-- 43_compression.md R180, R187, R194 with R155: the engine, which runs on the circular buffer, computes the
compression over the eager schedule. -/
def Obligations.CompressionMatchesEagerSchedule : Prop :=
  (∀ H blk, compress .e1 H blk = eagerCompress1 H blk) ∧ (∀ H blk, compress .e256 H blk = eagerCompress256 H blk) ∧
    ∀ H blk, compress .e512 H blk = eagerCompress512 H blk

/-- 43_compression.md R181, R182, R190: one round's new working registers from the old ones, sums as integers modulo 2^w:
E1's round function and constant by the range of t, and E256's and E512's two new words. -/
def Obligations.RoundsFollowTheEquations : Prop :=
  (∀ (r : Work5) (t : Nat) (Wt : W32), t < 80 →
      let f := if t ≤ 19 then ch r.b r.c r.d else if t ≤ 39 then parity r.b r.c r.d
        else if t ≤ 59 then maj r.b r.c r.d else parity r.b r.c r.d
      let K := if t ≤ 19 then 0x5A827999 else if t ≤ 39 then 0x6ED9EBA1 else if t ≤ 59 then 0x8F1BBCDC else 0xCA62C1D6
      let r' := roundStep1 r t Wt
      r'.a.toNat = ((rotl 5 r.a).toNat + f.toNat + r.e.toNat + K + Wt.toNat) % 2 ^ 32 ∧
        r'.b = r.a ∧ r'.c = rotl 30 r.b ∧ r'.d = r.c ∧ r'.e = r.d) ∧
    (∀ (r : Work8 32) (Kt Wt : W32),
      let T1 := r.h.toNat + (bigSigma1of256 r.e).toNat + (ch r.e r.f r.g).toNat + Kt.toNat + Wt.toNat
      let T2 := (bigSigma0of256 r.a).toNat + (maj r.a r.b r.c).toNat
      let r' := roundStep2 bigSigma0of256 bigSigma1of256 r Kt Wt
      r'.a.toNat = (T1 + T2) % 2 ^ 32 ∧ r'.e.toNat = (r.d.toNat + T1) % 2 ^ 32 ∧
        r'.b = r.a ∧ r'.c = r.b ∧ r'.d = r.c ∧ r'.f = r.e ∧ r'.g = r.f ∧ r'.h = r.g) ∧
    ∀ (r : Work8 64) (Kt Wt : W64),
      let T1 := r.h.toNat + (bigSigma1of512 r.e).toNat + (ch r.e r.f r.g).toNat + Kt.toNat + Wt.toNat
      let T2 := (bigSigma0of512 r.a).toNat + (maj r.a r.b r.c).toNat
      let r' := roundStep2 bigSigma0of512 bigSigma1of512 r Kt Wt
      r'.a.toNat = (T1 + T2) % 2 ^ 64 ∧ r'.e.toNat = (r.d.toNat + T1) % 2 ^ 64 ∧
        r'.b = r.a ∧ r'.c = r.b ∧ r'.d = r.c ∧ r'.f = r.e ∧ r'.g = r.f ∧ r'.h = r.g

/-! ### INIT -/

/-- 44_streaming.md R200, R201: each INIT completes in every state, with its algorithm's initial value, an empty
context, CCOUNT 0 and ERR OK, and nothing else changed; and that is what writing its word to CMD does. SHA-1's initial
value is the five words 41_constants.md R130 prints (the others: ConstantsAreFractionalRoots). -/
def Obligations.InitLoadsAFreshContext : Prop :=
  ivSha1 = #v[0x67452301, 0xEFCDAB89, 0x98BADCFE, 0x10325476, 0xC3D2E1F0] ∧
  ∀ s : State,
    exec .initSha1 s = .next (withEngine s (.active .sha1 ⟨ivSha1, 0, []⟩) 0 .ok) ∧
      exec .initSha224 s = .next (withEngine s (.active .sha224 ⟨ivSha224, 0, []⟩) 0 .ok) ∧
      exec .initSha256 s = .next (withEngine s (.active .sha256 ⟨ivSha256, 0, []⟩) 0 .ok) ∧
      exec .initSha384 s = .next (withEngine s (.active .sha384 ⟨ivSha384, 0, []⟩) 0 .ok) ∧
      exec .initSha512 s = .next (withEngine s (.active .sha512 ⟨ivSha512, 0, []⟩) 0 .ok) ∧
      commandWrite 0x00000011 s = exec .initSha1 s ∧ commandWrite 0x00000021 s = exec .initSha224 s ∧
      commandWrite 0x00000031 s = exec .initSha256 s ∧ commandWrite 0x00000041 s = exec .initSha384 s ∧
      commandWrite 0x00000051 s = exec .initSha512 s

/-- R202: what INIT leaves does not depend on the context, CCOUNT or ERR it found, whatever the phase. -/
def Obligations.InitForgetsTheOldContext : Prop :=
  ∀ (s : State) (c : Ctx) (cc : W64) (e : ErrCode) (i : Instr), i ∈ initializing →
    exec i (withEngine s c cc e) = exec i s ∧ ∃ t, exec i s = .next t ∧ t.eng.ctx.phase = 1

/-! ### UPDATE -/

/-- R204, R205, R206, R211 with 10_state.md R37: UPDATE completes on the context of any message M, and leaves the
context of M followed by the LEN bytes at SRC; CCOUNT grows by (used + LEN) div B, and nothing else changes but ERR. -/
def Obligations.UpdateAbsorbsTheChunk : Prop :=
  ∀ (s : State) (alg : Alg) (M : List Byte) (a : Active alg.family),
    s.eng.ctx = .active alg a → Represents alg M a →
    ¬LeavesSpace s s.eng.arg0.toNat s.eng.arg1.toNat →
    8 * (M.length + s.eng.arg1.toNat) < 2 ^ alg.family.LW →
    plainRange s.cfg s.eng.arg0.toNat s.eng.arg1.toNat = true →
    ∃ a', Represents alg (M ++ Memory.readBytes s.mem s.eng.arg0.toNat s.eng.arg1.toNat) a' ∧
      exec .update s = .next (withEngine s (.active alg a')
        (s.eng.ccount + BitVec.ofNat 64 ((M.length % alg.family.B + s.eng.arg1.toNat) / alg.family.B)) .ok)

/-- R205, R206: UPDATE of one byte, on any ACTIVE context: the byte joins the buffer and the counter grows by 8; a
buffer that reaches B bytes is compressed at once, counted in CCOUNT and emptied. -/
def Obligations.UpdateOfOneByte : Prop :=
  ∀ (s : State) (alg : Alg) (a : Active alg.family),
    s.eng.ctx = .active alg a → s.eng.arg1 = 1 → s.eng.arg0.toNat < 2 ^ s.cfg.addrW →
    a.bc.toNat + 8 < 2 ^ alg.family.LW → plainRange s.cfg s.eng.arg0.toNat 1 = true →
    let b := Memory.read s.mem s.eng.arg0.toNat
    exec .update s = .next
      (if a.buf.length + 1 = alg.family.B then
        withEngine s (.active alg ⟨compress alg.family a.h (a.buf ++ [b]), BitVec.ofNat _ (a.bc.toNat + 8), []⟩)
          (s.eng.ccount + 1) .ok
      else withEngine s (.active alg ⟨a.h, BitVec.ofNat _ (a.bc.toNat + 8), a.buf ++ [b]⟩) s.eng.ccount .ok)

/-- R210: one UPDATE of m + n bytes leaves the context, CCOUNT and memory that an UPDATE of the first m bytes and an
UPDATE of the next n leave. -/
def Obligations.UpdateSplitsAtAnyPoint : Prop :=
  ∀ (s : State) (alg : Alg) (a : Active alg.family) (p m n d : Nat),
    s.eng.ctx = .active alg a → p + m < 2 ^ 64 → m + n < 2 ^ 64 → p + m + n ≤ 2 ^ s.cfg.addrW →
    a.bc.toNat + 8 * (m + n) < 2 ^ alg.family.LW → plainRange s.cfg p (m + n) = true →
    let upd (u : State) (q l : Nat) := exec .update (withOperands u (BitVec.ofNat 64 q) (BitVec.ofNat 64 l) (BitVec.ofNat 64 d))
    ∃ t1 t2 t, upd s p m = .next t1 ∧ upd t1 (p + m) n = .next t2 ∧ upd s p (m + n) = .next t ∧
      t2.eng.ctx = t.eng.ctx ∧ t2.eng.ccount = t.eng.ccount ∧ t2.mem = t.mem

/-- R207: the block-wise procedure agrees with byte-by-byte absorption, from any context whose buffer holds `used`
bytes. -/
def Obligations.BlockwiseUpdateAgrees : Prop :=
  ∀ (f : Family) (x : Hashing f) (m : List Byte), x.act.buf.length = x.act.bc.toNat / 8 % f.B →
    absorbBlockwise x m = absorbAll x m

/-- R208: a zero-length UPDATE on an ACTIVE context changes nothing but sets ERR to OK, wherever SRC points; on any
other context it raises NOT_ACTIVE. -/
def Obligations.ZeroLengthUpdate : Prop :=
  ∀ s : State, s.eng.arg1 = 0 →
    (s.eng.ctx.phase = 1 → exec .update s = .next { s with eng := { s.eng with err := .ok } }) ∧
      (s.eng.ctx.phase ≠ 1 → exec .update s = .next { s with eng := { s.eng with err := .notActive } })

/-- R209: UPDATE of an in-range chunk raises LENGTH, absorbing nothing, when BC + 8·LEN reaches 2^LW: 2^64 for SHA-1,
SHA-224 and SHA-256, 2^128 for SHA-384 and SHA-512. -/
def Obligations.UpdateRefusesOverlongMessages : Prop :=
  ∀ (s : State) (alg : Alg) (a : Active alg.family),
    s.eng.ctx = .active alg a → ¬LeavesSpace s s.eng.arg0.toNat s.eng.arg1.toNat →
    (if alg = .sha384 ∨ alg = .sha512 then 2 ^ 128 else 2 ^ 64) ≤ a.bc.toNat + 8 * s.eng.arg1.toNat →
    exec .update s = .next { s with eng := { s.eng with err := .length } }

/-! ### FINAL -/

/-- 45_finalization.md R230 to R238, R243: FINAL on the context of a message M writes HASH(M) at DST, counts its one or
two compressions, wipes the context and reports OK; nothing else changes. -/
def Obligations.FinalDeliversTheHash : Prop :=
  ∀ (s : State) (alg : Alg) (M : List Byte) (a : Active alg.family),
    s.eng.ctx = .active alg a → Represents alg M a → ¬LeavesSpace s s.eng.arg2.toNat alg.DL →
    plainRange s.cfg s.eng.arg2.toNat alg.DL = true →
    exec .final s = .next { withEngine s .finalized
      (s.eng.ccount + if M.length % alg.family.B ≤ alg.family.B - alg.family.L - 1 then 1 else 2) .ok with
        mem := Memory.writeBytes s.mem s.eng.arg2.toNat (hash alg M) }

/-- R235: FINAL on any ACTIVE context and usable destination completes, with one compression where used ≤ B - L - 1 and
two where used ≥ B - L: used is 55 or 56 of 64 bytes for SHA-1, SHA-224 and SHA-256, 111 or 112 of 128 for SHA-384 and
SHA-512. -/
def Obligations.FinalCountsOneOrTwoCompressions : Prop :=
  ∀ (s : State) (alg : Alg) (a : Active alg.family),
    s.eng.ctx = .active alg a → ¬LeavesSpace s s.eng.arg2.toNat alg.DL →
    plainRange s.cfg s.eng.arg2.toNat alg.DL = true →
    let wide := alg = .sha384 ∨ alg = .sha512
    ∃ t, exec .final s = .next t ∧
      (¬wide → a.bc.toNat / 8 % 64 ≤ 55 → t.eng.ccount = s.eng.ccount + 1) ∧
      (¬wide → 56 ≤ a.bc.toNat / 8 % 64 → t.eng.ccount = s.eng.ccount + 2) ∧
      (wide → a.bc.toNat / 8 % 128 ≤ 111 → t.eng.ccount = s.eng.ccount + 1) ∧
      (wide → 112 ≤ a.bc.toNat / 8 % 128 → t.eng.ccount = s.eng.ccount + 2)

/-- R239: FINAL on an ACTIVE context whose digest range leaves the address space performs no compression, writes no
memory, wipes the context and reports RANGE. -/
def Obligations.FinalUnusableDestinationWipes : Prop :=
  ∀ (s : State) (alg : Alg) (a : Active alg.family),
    s.eng.ctx = .active alg a → LeavesSpace s s.eng.arg2.toNat alg.DL →
    exec .final s = .next (withEngine s .finalized s.eng.ccount .range)

/-- R240: FINAL.DISCARD on an ACTIVE context wipes it and reports OK, with no compression and no memory access; on any
other context it raises NOT_ACTIVE; without HAS_DISCARD its word raises RESERVED_BITS. -/
def Obligations.DiscardWipesWithoutCompressing : Prop :=
  ∀ s : State,
    (s.eng.ctx.phase = 1 → exec .finalDiscard s = .next (withEngine s .finalized s.eng.ccount .ok)) ∧
      (s.eng.ctx.phase ≠ 1 → exec .finalDiscard s = .next { s with eng := { s.eng with err := .notActive } }) ∧
      (s.cfg.hasDiscard = false →
        commandWrite 0x00000083 s = .next { s with eng := { s.eng with err := .reservedBits } })

/-- R237, 10_state.md R55: after a FINAL, FINAL.DISCARD or ONESHOT that reports OK the context is wiped: PHASE 2, ALG 0,
every word of H, the counter and the buffer zero; and UPDATE, FINAL and FINAL.DISCARD then raise NOT_ACTIVE and change
nothing else. (FINAL refused with RANGE: FinalUnusableDestinationWipes.) -/
def Obligations.WipeLeavesNothingAndClosesTheContext : Prop :=
  ∀ (s t : State) (i : Instr), i ∈ finalizing → exec i s = .next t → t.eng.err = .ok →
    t.eng.ctx.phase = 2 ∧ t.eng.ctx.algCode = 0 ∧ (∀ j, t.eng.ctx.hWord j = 0) ∧ t.eng.ctx.bcValue = 0 ∧
      t.eng.ctx.pending = [] ∧
      ∀ j ∈ [Instr.update, Instr.final, Instr.finalDiscard],
        exec j t = .next { t with eng := { t.eng with err := .notActive } }

/-- R242 with the B and L of 00_scope.md R8, which are the model's: pad(M) is M, the byte 0x80, the least number of zero
bytes that makes whole blocks, and the big-endian bit length. -/
def Obligations.PaddingFillsWholeBlocks : Prop :=
  ∀ f : Family,
    let B := printedB f
    let L := printedL f
    f.B = B ∧ f.L = L ∧
      ∀ M : List Byte, ∃ z, pad f M = M ++ [0x80] ++ List.replicate z 0 ++ beStore L (8 * M.length) ∧
        (M.length + 1 + z + L) % B = 0 ∧ (pad f M).length % B = 0 ∧ ∀ z', (M.length + 1 + z' + L) % B = 0 → z ≤ z'

/-! ### ONESHOT -/

/-- 46_collaborators.md R260 with 45_finalization.md R241, R243: each ONESHOT completes in every phase when its ranges
are usable and its message is not overlong: HASH of the LEN bytes at SRC stands at DST, the context is wiped, CCOUNT
is the compressions of the padded message; nothing else changes. -/
def Obligations.OneshotDeliversTheHash : Prop :=
  ∀ (s : State) (alg : Alg),
    ¬LeavesSpace s s.eng.arg0.toNat s.eng.arg1.toNat → ¬LeavesSpace s s.eng.arg2.toNat alg.DL →
    8 * s.eng.arg1.toNat < 2 ^ alg.family.LW →
    plainRange s.cfg s.eng.arg0.toNat s.eng.arg1.toNat = true → plainRange s.cfg s.eng.arg2.toNat alg.DL = true →
    let N := s.eng.arg1.toNat
    let B := alg.family.B
    exec (match alg with
        | .sha1 => .oneshotSha1
        | .sha224 => .oneshotSha224
        | .sha256 => .oneshotSha256
        | .sha384 => .oneshotSha384
        | .sha512 => .oneshotSha512) s =
      .next { withEngine s .finalized (BitVec.ofNat 64 (N / B + if N % B ≤ B - alg.family.L - 1 then 1 else 2)) .ok with
        mem := Memory.writeBytes s.mem s.eng.arg2.toNat (hash alg (Memory.readBytes s.mem s.eng.arg0.toNat N)) }

/-- R261, 30_encoding.md R94: where ONESHOT reports OK, INIT, UPDATE and FINAL with the same operands complete one
after the other and leave exactly its end state. -/
def Obligations.OneshotEqualsInitUpdateFinal : Prop :=
  ∀ (s t : State) (alg : Alg), exec (Instr.oneshotOf alg) s = .next t → t.eng.err = .ok →
    ∃ s1 s2, exec (Instr.initOf alg) s = .next s1 ∧ exec .update s1 = .next s2 ∧ exec .final s2 = .next t

/-! ### TOHEX -/

/-- R263, with R262's accesses: TOHEX completes in every phase when its ranges are usable and do not meet: the characters of byte i of
the source stand at DST + 2i, high nibble first; every other byte of memory, the context and CCOUNT are unchanged. -/
def Obligations.TohexWritesLowercaseHex : Prop :=
  ∀ s : State, Memory.wf s.mem = true →
    let src := s.eng.arg0.toNat
    let len := s.eng.arg1.toNat
    let dst := s.eng.arg2.toNat
    ¬LeavesSpace s src len → ¬LeavesSpace s dst (2 * len) → (src + len ≤ dst ∨ dst + 2 * len ≤ src ∨ len = 0) →
    plainRange s.cfg src len = true → plainRange s.cfg dst (2 * len) = true →
    ∃ t, exec .tohex s = .next t ∧ t = { s with mem := t.mem, eng := { s.eng with err := .ok } } ∧
      (∀ i, i < len →
        Memory.read t.mem (dst + 2 * i) = hexDigits.getD ((Memory.read s.mem (src + i)).toNat / 16) 0 ∧
          Memory.read t.mem (dst + 2 * i + 1) = hexDigits.getD ((Memory.read s.mem (src + i)).toNat % 16) 0) ∧
      ∀ x, x < dst ∨ dst + 2 * len ≤ x → Memory.read t.mem x = Memory.read s.mem x

/-- R265: the text of N bytes has 2N characters, each a digit or one of a to f, and decoding it gives the bytes back. -/
def Obligations.HexTextRoundTrips : Prop :=
  ∀ bs : List Byte, (hexText bs).length = 2 * bs.length ∧
    (∀ c ∈ hexText bs, (0x30 ≤ c.toNat ∧ c.toNat ≤ 0x39) ∨ (0x61 ≤ c.toNat ∧ c.toNat ≤ 0x66)) ∧
    unhex (hexText bs) = bs

/-- R264: TOHEX checks its source range, then its destination range, raising RANGE; with both in the address space it
raises OVERLAP exactly when some address lies in both. Each refusal changes nothing but ERR. -/
def Obligations.TohexChecksItsRanges : Prop :=
  ∀ s : State,
    let src := s.eng.arg0.toNat
    let len := s.eng.arg1.toNat
    let dst := s.eng.arg2.toNat
    (LeavesSpace s src len ∨ LeavesSpace s dst (2 * len) →
      exec .tohex s = .next { s with eng := { s.eng with err := .range } }) ∧
    (¬LeavesSpace s src len → ¬LeavesSpace s dst (2 * len) →
      ((∃ x, src ≤ x ∧ x < src + len ∧ dst ≤ x ∧ x < dst + 2 * len) ↔
        exec .tohex s = .next { s with eng := { s.eng with err := .overlap } }))

/-! ### Errors -/

/-- 60_exceptions.md R309: which error a command word reports when several apply: the decoder's, then NOT_ACTIVE, then
RANGE on the source, RANGE on the destination, LENGTH, OVERLAP. That ONESHOT reports LENGTH at all is the model's reading
of R260's check against its remark (DEDUCED, assumption log 16). -/
def Obligations.ErrorsFollowThePriority : Prop :=
  ∀ s : State,
    let err (v : W32) (e : ErrCode) := ∃ t, commandWrite v s = .next t ∧ t.eng.err = e
    let src := s.eng.arg0.toNat
    let len := s.eng.arg1.toNat
    let dst := s.eng.arg2.toNat
    (∀ v e, decode s.cfg.hasDiscard v = .error e → err v e) ∧
      (s.eng.ctx.phase ≠ 1 → err 0x02 .notActive ∧ err 0x03 .notActive ∧
        (s.cfg.hasDiscard = true → err 0x83 .notActive)) ∧
      (∀ (alg : Alg) (a : Active alg.family), s.eng.ctx = .active alg a →
        (LeavesSpace s src len → err 0x02 .range) ∧
          (¬LeavesSpace s src len → 2 ^ alg.family.LW ≤ a.bc.toNat + 8 * len → err 0x02 .length) ∧
          (LeavesSpace s dst alg.DL → err 0x03 .range)) ∧
      (∀ alg : Alg,
        (LeavesSpace s src len → err (encode (.oneshotOf alg)) .range) ∧
          (LeavesSpace s dst alg.DL → err (encode (.oneshotOf alg)) .range) ∧
          (¬LeavesSpace s src len → ¬LeavesSpace s dst alg.DL → 2 ^ alg.family.LW ≤ 8 * len →
            err (encode (.oneshotOf alg)) .length)) ∧
      (LeavesSpace s src len → err 0x05 .range) ∧ (LeavesSpace s dst (2 * len) → err 0x05 .range) ∧
      (¬LeavesSpace s src len → ¬LeavesSpace s dst (2 * len) → 0 < len → src < dst + 2 * len → dst < src + len →
        err 0x05 .overlap)

/-- R310: a refused command word writes STATUS.ERR and changes nothing else, but for FINAL on an ACTIVE context, whose
one refusal is RANGE, which wipes the context and leaves CCOUNT and host memory alone. -/
def Obligations.RefusedCommandChangesOnlyErr : Prop :=
  ∀ (v : W32) (s t : State), commandWrite v s = .next t → t.eng.err ≠ .ok →
    if v = 0x00000003 ∧ s.eng.ctx.phase = 1 then t = withEngine s .finalized s.eng.ccount .range
    else t = { s with eng := { s.eng with err := t.eng.err } }

/-- R300, R315: on plain memory every command word is answered in every state: the machine goes on, and every word that
is a command reports its result. -/
def Obligations.EveryCommandWordIsAnswered : Prop :=
  ∀ (v : W32) (s : State), s.cfg.sideEffect = [] → ∃ t, commandWrite v s = .next t

/-! ### What commands leave alone -/

/-- 10_state.md R42 to R44, 60_exceptions.md R331: no command writes ARG0, ARG1 or ARG2, another instance, the
configuration or the host's side. -/
def Obligations.CommandsKeepOperandsAndOtherInstances : Prop :=
  ∀ (v : W32) (s t : State), commandWrite v s = .next t →
    t = { s with mem := t.mem, eng := { s.eng with ctx := t.eng.ctx, ccount := t.eng.ccount, err := t.eng.err } }

/-- 20_memory.md R64: a command changes no byte outside its write range, none at all if it is refused; and what it does
depends on no byte outside its read range. -/
def Obligations.AccessesStayInTheirRanges : Prop :=
  ∀ (i : Instr) (s t : State), exec i s = .next t →
    (∀ x, x < (storeRange i s).1 ∨ (storeRange i s).1 + (storeRange i s).2 ≤ x →
        Memory.read t.mem x = Memory.read s.mem x) ∧
      (t.eng.err ≠ .ok → t.mem = s.mem) ∧
      ∀ m : Memory, Memory.wf s.mem = true → Memory.wf m = true →
        (∀ x, (readRange i s).1 ≤ x → x < (readRange i s).1 + (readRange i s).2 → Memory.read m x = Memory.read s.mem x) →
        ∃ u, exec i { s with mem := m } = .next u ∧ u.eng = t.eng ∧
          (t.eng.err = .ok → ∀ x, (storeRange i s).1 ≤ x → x < (storeRange i s).1 + (storeRange i s).2 →
            Memory.read u.mem x = Memory.read t.mem x)

/-- 10_state.md R31: INIT leaves PHASE ACTIVE, FINAL and ONESHOT (which passes through ACTIVE) leave it FINALIZED, only
reset makes it INVALID, and no other command moves it; UPDATE and FINAL require ACTIVE; the value 3 is never
produced. -/
def Obligations.PhaseMovesAsRuled : Prop :=
  (∀ (i : Instr) (s : State), i ∈ [Instr.update, Instr.final, Instr.finalDiscard] → s.eng.ctx.phase ≠ 1 →
      exec i s = .next { s with eng := { s.eng with err := .notActive } }) ∧
  (∀ (i : Instr) (s t : State), exec i s = .next t → t.eng.ctx.phase ≠ s.eng.ctx.phase →
      (t.eng.ctx.phase = 1 ∧ i ∈ initializing) ∨ (t.eng.ctx.phase = 2 ∧ i ∈ finalizing)) ∧
    (∀ (s t : State) (act : HostAction) (k : Nat) (e e' : Engine), perform act s = .next t → s.cur ≤ s.parked.length →
      s.engines[k]? = some e → t.engines[k]? = some e' → e.ctx.phase ≠ 0 → e'.ctx.phase = 0 →
      act = .reset k ∨ ∃ v, act = .resetDuring k v) ∧
    ∀ c : Ctx, c.phase ≠ 3

/-! ### The register block -/

/-- R45, R32: the fields of STATUS, its reserved bits 0, and ALG 0 unless PHASE is ACTIVE; the codes are those of
60_exceptions.md R301, 10_state.md R31 and 30_encoding.md R84. -/
def Obligations.StatusWordLayout : Prop :=
  ∀ e : Engine,
    (errBits e.err).toNat = printedErr e.err ∧
      (e.ctx.phase.toNat, e.ctx.algCode.toNat) = (match e.ctx with
        | .invalid => (0, 0)
        | .active alg _ => (1, printedAlg alg)
        | .finalized => (2, 0)) ∧
      e.status.toNat = 256 * (errBits e.err).toNat + 16 * e.ctx.algCode.toNat + e.ctx.phase.toNat ∧
      e.status.toNat < 0x1000 ∧ (e.ctx.phase = 1 ↔ e.ctx.algCode ≠ 0) ∧ e.ctx.algCode.toNat ≤ 5

/-- R40, R42 to R47: what the registers of the addressed instance return and what writes to them do. -/
def Obligations.RegisterBlockReadsAndWrites : Prop :=
  ∀ (s : State) (v : W64),
    let rd (off : BitVec 6) (w : Nat) (t : State) := perform (.regRead t.cur off w) t
    let wr (off : BitVec 6) (w : Nat) := perform (.regWrite s.cur off w v) s
    (∃ t, wr 0x08 8 = .next t ∧ t = { s with eng := { s.eng with arg0 := v } } ∧ rd 0x08 8 t = .next { t with rdata := some v }) ∧
      (∃ t, wr 0x10 8 = .next t ∧ t = { s with eng := { s.eng with arg1 := v } } ∧ rd 0x10 8 t = .next { t with rdata := some v }) ∧
      (∃ t, wr 0x18 8 = .next t ∧ t = { s with eng := { s.eng with arg2 := v } } ∧ rd 0x18 8 t = .next { t with rdata := some v }) ∧
      rd 0x00 4 s = .next { s with rdata := some 0 } ∧
      rd 0x20 4 s = .next { s with rdata := some (s.eng.status.setWidth 64) } ∧ wr 0x20 4 = .next s ∧
      rd 0x28 8 s = .next { s with rdata := some s.eng.ccount } ∧ wr 0x28 8 = .next s ∧
      ∀ off ∈ [(0x04 : BitVec 6), 0x0C, 0x14, 0x1C, 0x24, 0x2C, 0x30, 0x34, 0x38, 0x3C],
        rd off 4 s = .next { s with rdata := some 0 } ∧ wr off 4 = .next s

/-- R48: an access of another width than the register's, or of no register width at all, is refused, and so is a
misaligned one: at an offset that is no multiple of 4, or of 8 bytes at one that is no multiple of 8. -/
def Obligations.PartialRegisterAccessIsRefused : Prop :=
  ∀ (s : State) (v : W64) (off : BitVec 6) (w : Nat),
    (w ≠ 4 ∧ w ≠ 8) ∨ ((off = 0x00 ∨ off = 0x20) ∧ w ≠ 4) ∨
        ((off = 0x08 ∨ off = 0x10 ∨ off = 0x18 ∨ off = 0x28) ∧ w ≠ 8) ∨ off.toNat % 4 ≠ 0 ∨
        (w = 8 ∧ off.toNat % 8 ≠ 0) →
    perform (.regRead s.cur off w) s = .refused .registerAccess ∧
      perform (.regWrite s.cur off w v) s = .refused .registerAccess

/-- R49: a register read tells nothing of the context but PHASE and ALG. -/
def Obligations.ContextIsHiddenFromTheHost : Prop :=
  ∀ (s : State) (c : Ctx) (k : Nat) (off : BitVec 6) (w : Nat), c.phase = s.eng.ctx.phase → c.algCode = s.eng.ctx.algCode →
    k = s.cur →
    (∀ t, perform (.regRead k off w) s = .next t → perform (.regRead k off w) { s with eng := { s.eng with ctx := c } } =
      .next { t with eng := { t.eng with ctx := c } }) ∧
    (∀ (v : W64) t, off ≠ 0x00 → perform (.regWrite k off w v) s = .next t → t.eng.ctx = s.eng.ctx)

/-! ### Instances, host memory and reset -/

/-- 60_exceptions.md R331: an action on one instance changes no other; an access to host memory changes none. -/
def Obligations.InstancesAreIndependent : Prop :=
  ∀ (s t : State) (act : HostAction), s.cur ≤ s.parked.length → perform act s = .next t →
    t.engines.length = s.engines.length ∧ ∀ j, instanceOf act ≠ some j → t.engines[j]? = s.engines[j]?

/-- 20_memory.md R62, R75: a byte of plain memory the host writes is what it reads back, and no other byte changes. -/
def Obligations.HostMemoryReadsBack : Prop :=
  ∀ (s : State) (a : Nat) (b : Byte), Memory.wf s.mem = true → a < 2 ^ s.cfg.addrW → inRegisterBlock s.cfg a = false →
    plainRange s.cfg a 1 = true →
    ∃ t, perform (.memWrite a b) s = .next t ∧ perform (.memRead a) t = .next { t with rdata := some (b.setWidth 64) } ∧
      t = { s with mem := t.mem } ∧ ∀ x, x ≠ a → Memory.read t.mem x = Memory.read s.mem x

/-- 10_state.md R54, 70_reset_and_hazards.md R340, R341: reset of an instance sets every piece of its state to R54's
value and changes nothing else; after reset of a machine every instance is in that state. -/
def Obligations.ResetValues : Prop :=
  let IsReset (e : Engine) := e.ctx.phase = 0 ∧ e.ctx.algCode = 0 ∧ (∀ i, e.ctx.hWord i = 0) ∧ e.ctx.bcValue = 0 ∧
    e.ctx.pending = [] ∧ e.arg0 = 0 ∧ e.arg1 = 0 ∧ e.arg2 = 0 ∧ e.status = 0 ∧ e.ccount = 0
  (∀ s : State, ∃ t, perform (.reset s.cur) s = .next t ∧ IsReset t.eng ∧ t = { s with eng := t.eng }) ∧
    ∀ (c : Config) (e : Engine), e ∈ (State.resetOf c).engines → IsReset e

/-- The invariant holds after reset, in the standard configuration and in every one with at least one instance. -/
def Obligations.ResetIsSound : Prop :=
  State.reset.Sound ∧ ∀ c : Config, 1 ≤ c.nEngines → (State.resetOf c).Sound

/-- 10_state.md R37: every step keeps the invariant: canonical memory inside the address space, and every ACTIVE context
the context of some message. -/
def Obligations.EveryStepKeepsSoundness : Prop :=
  ∀ s t : State, s.Sound → step s = .next t → t.Sound

/-- From a sound state with plain memory, a host that performs only proper actions never meets a fault or a refusal,
however long it runs. -/
def Obligations.ProperRunsNeverStop : Prop :=
  ∀ (n : Nat) (s : State), s.Sound → s.cfg.sideEffect = [] → (∀ act ∈ s.queue, proper s.cfg act = true) → SafeRun n s

/-- 60_exceptions.md R334: with no host action to perform the engine keeps all its state. -/
def Obligations.IdleEngineKeepsItsState : Prop :=
  ∀ s : State, s.queue = [] → step s = .next s

/-! ### What other agents do -/

/-- 20_memory.md R75, R345 (U8, assumption log 10): a race changes no byte but the racing ones and those the command
writes, and no other instance; with a word that is no command, no byte but the racing ones. -/
def Obligations.RacesStayLocal : Prop :=
  ∀ (s t : State) (v : W32) (addrs : List Nat), perform (.race s.cur v addrs) s = .next t →
    t.parked = s.parked ∧ t.cur = s.cur ∧
      ∀ x, x ∉ addrs →
        (∀ i, decode s.cfg.hasDiscard v = .ok i → x < (storeRange i s).1 ∨ (storeRange i s).1 + (storeRange i s).2 ≤ x) →
        Memory.read t.mem x = Memory.read s.mem x

/-- 70_reset_and_hazards.md R341 (U10, assumption log 13): a reset during a command leaves the instance in its reset
state and changes no byte but those the command writes; with a word that is no command, no byte. -/
def Obligations.ResetDuringCommandStaysLocal : Prop :=
  ∀ (s t : State) (v : W32), perform (.resetDuring s.cur v) s = .next t →
    t.eng = Engine.reset ∧ t.parked = s.parked ∧
      ∀ x,
        (∀ i, decode s.cfg.hasDiscard v = .ok i → x < (storeRange i s).1 ∨ (storeRange i s).1 + (storeRange i s).2 ≤ x) →
        Memory.read t.mem x = Memory.read s.mem x

/-- 20_memory.md R72 (U6, assumption log 9): a command that passes its checks and would read or write memory with side
effects is refused: UPDATE, FINAL, every ONESHOT and TOHEX. The host's own byte access there, and a race there, are
refused by the model's choice (DESIGN CHOICE, assumption log 9). -/
def Obligations.SideEffectMemoryIsRefused : Prop :=
  ∀ s : State,
    let src := s.eng.arg0.toNat
    let len := s.eng.arg1.toNat
    let dst := s.eng.arg2.toNat
    (∀ (alg : Alg) (a : Active alg.family), s.eng.ctx = .active alg a →
      (¬LeavesSpace s src len → a.bc.toNat + 8 * len < 2 ^ alg.family.LW → MeetsDevice s src len →
        exec .update s = .refused .sideEffectMemory) ∧
      (¬LeavesSpace s dst alg.DL → MeetsDevice s dst alg.DL → exec .final s = .refused .sideEffectMemory)) ∧
    (∀ alg : Alg, ¬LeavesSpace s src len → ¬LeavesSpace s dst alg.DL → 8 * len < 2 ^ alg.family.LW →
      MeetsDevice s src len ∨ MeetsDevice s dst alg.DL →
      exec (Instr.oneshotOf alg) s = .refused .sideEffectMemory) ∧
    (¬LeavesSpace s src len → ¬LeavesSpace s dst (2 * len) → (src + len ≤ dst ∨ dst + 2 * len ≤ src) →
      MeetsDevice s src len ∨ MeetsDevice s dst (2 * len) → exec .tohex s = .refused .sideEffectMemory) ∧
    (∀ x, x < 2 ^ s.cfg.addrW → MeetsDevice s x 1 →
      (inRegisterBlock s.cfg x = false → ∀ b, perform (.memRead x) s = .refused .sideEffectMemory ∧
        perform (.memWrite x b) s = .refused .sideEffectMemory) ∧
      ∀ v, perform (.race s.cur v [x]) s = .refused .sideEffectMemory)

/-! ### Digest words, block words and feed-forward -/

/-- 45_finalization.md R236: the digest has 20, 28, 32, 48 or 64 bytes, whole words of the chaining value from H[0] on,
each most significant byte first. -/
def Obligations.ExtractIsABigEndianPrefix : Prop :=
  ∀ (alg : Alg) (h : Vector (BitVec alg.family.w) alg.family.n),
    let k := alg.family.w / 8
    (extract alg h).length = printedDL alg ∧ printedDL alg % k = 0 ∧
      ∀ j, j < printedDL alg → j / k < alg.family.n ∧
        (extract alg h)[j]? = some (BitVec.ofNat 8 ((h.toList.getD (j / k) 0).toNat / 256 ^ (k - 1 - j % k)))

/-- 40_word_primitives.md R122: word i of a block is the big-endian value of its w/8 bytes from byte i·w/8 on; and
43_compression.md R198: the feed-forward adds word by word modulo 2^w, with no carry into the next word. -/
def Obligations.BlockWordsAndFeedForward : Prop :=
  (∀ (w : Nat) (blk : List Byte), w = 32 ∨ w = 64 → blk.length = 16 * (w / 8) → ∀ i : Fin 16,
      (wordsOf w blk)[i].toNat =
        ((List.range (w / 8)).map fun j => (blk.getD (i * (w / 8) + j) 0).toNat * 256 ^ (w / 8 - 1 - j)).sum) ∧
    ∀ (w n : Nat) (H x : Vector (BitVec w) n) (i : Fin n),
      (feedForward H x)[i].toNat = (H[i].toNat + x[i].toNat) % 2 ^ w

/-! ### Host programs (30_encoding.md R93, R94; assumption log 17) -/

/-- R93: a CHECK of a field of STATUS, or of a whole register, records whether it has the value and has no effect on
the engine. -/
def Obligations.CheckRecordsTheField : Prop :=
  ∀ (s : State) (v : Nat),
    let recorded (holds : Bool) : Host.Outcome State Fault Refusal := .next { s with checks := s.checks ++ [holds] }
    perform (.check s.cur 0x20 4 ⟨1, 0⟩ v) s = recorded (decide (s.eng.ctx.phase.toNat = v)) ∧
      perform (.check s.cur 0x20 4 ⟨6, 4⟩ v) s = recorded (decide (s.eng.ctx.algCode.toNat = v)) ∧
      perform (.check s.cur 0x20 4 ⟨11, 8⟩ v) s = recorded (decide ((errBits s.eng.err).toNat = v)) ∧
      perform (.check s.cur 0x28 8 ⟨63, 0⟩ v) s = recorded (decide (s.eng.ccount.toNat = v)) ∧
      perform (.check s.cur 0x00 4 ⟨31, 0⟩ v) s = recorded (decide (0 = v))

/-- R93: a program starts with the bytes its memory lines describe in place, each line's where no later line lies over
them (a later line lies over an earlier one by the model's choice, assumption log 17), every other byte as before, the
actions of its lines queued in order, and nothing else changed. -/
def Obligations.ProgramStartsWithItsMemory : Prop :=
  ∀ (s t : State) (k : Nat) (p : HostProgram), Memory.wf s.mem = true → s.withProgram k p = some t →
    t = { s with mem := t.mem, queue := p.lines.flatMap (printedActions k) } ∧
      (∀ l1 m l2, p.memory = l1 ++ m :: l2 → ∀ j, j < m.bytes.length →
        (∀ m' ∈ l2, m.start + j < m'.start ∨ m'.start + m'.bytes.length ≤ m.start + j) →
        some (Memory.read t.mem (m.start + j)) = m.bytes[j]?) ∧
      ∀ x, (∀ m ∈ p.memory, x < m.start ∨ m.start + m.bytes.length ≤ x) → Memory.read t.mem x = Memory.read s.mem x

/-- R94, 46_collaborators.md R261: where a ONESHOT line runs to OK, the HASH line with the same operands runs to the same
state. -/
def Obligations.HashLineEqualsOneshotLine : Prop :=
  ∀ (s t : State) (k : Nat) (alg : Alg) (src len dst : W64),
    Host.Core.run core 4 { s with queue := HostLine.actions k (.command (Instr.oneshotOf alg) (some src) (some len) (some dst)) } =
      .next t →
    t.eng.err = .ok →
    Host.Core.run core 6 { s with queue := HostLine.actions k (.hash alg src len dst) } = .next t

/-- R94: WIPE exists only under HAS_DISCARD, and is FINAL.DISCARD; UPDATE.EMPTY sets ARG1 to 0 and is a no-op on an
ACTIVE context. That a program that holds a WIPE line without HAS_DISCARD does not start at all is the model's choice
(DESIGN CHOICE, assumption log 17). -/
def Obligations.WipeAndUpdateEmptyLines : Prop :=
  ∀ s : State,
    (s.cfg.hasDiscard = false → ∀ k p, HostLine.wipe ∈ p.lines → s.withProgram k p = none) ∧
    (s.cfg.hasDiscard = true → ∃ t, s.withProgram s.cur ⟨[], [.wipe]⟩ = some t ∧
      step t = exec .finalDiscard { s with queue := [] }) ∧
    ∃ t, s.withProgram s.cur ⟨[], [.updateEmpty]⟩ = some t ∧
      (s.eng.ctx.phase = 1 →
        Host.Core.run core 2 t = .next { s with queue := [], eng := { s.eng with arg1 := 0, err := .ok } })

/-! ### The schedule's words -/

/-- 42_schedule.md R150 to R153: the schedule's first sixteen words are the block's, and each later one comes from four
earlier ones by the family's recurrence. -/
def Obligations.ScheduleFollowsTheRecurrence : Prop :=
  (∀ (f : Family) (M : W16 f.w) (t : Fin 16), sched f M t = M[t]) ∧
    (∀ (M : W16 32) (t : Nat), 16 ≤ t → t < 80 →
      let W := sched .e1 M
      W t = rotl 1 (W (t - 3) ^^^ W (t - 8) ^^^ W (t - 14) ^^^ W (t - 16))) ∧
    (∀ (M : W16 32) (t : Nat), 16 ≤ t → t < 64 →
      let W := sched .e256 M
      (W t).toNat = ((smallSigma1of256 (W (t - 2))).toNat + (W (t - 7)).toNat + (smallSigma0of256 (W (t - 15))).toNat +
        (W (t - 16)).toNat) % 2 ^ 32) ∧
    ∀ (M : W16 64) (t : Nat), 16 ≤ t → t < 80 →
      let W := sched .e512 M
      (W t).toNat = ((smallSigma1of512 (W (t - 2))).toNat + (W (t - 7)).toNat + (smallSigma0of512 (W (t - 15))).toNat +
        (W (t - 16)).toNat) % 2 ^ 64
end

