-- ==== Sys2Proof/Laws/Memory.lean ====
section
/-! SUPPORT. Host memory: reads after writes, and that every operation keeps the canonical form. -/

namespace Sys2Proof.Machine

@[simp] theorem read_nil (a : Nat) : Memory.read [] a = 0 := rfl

theorem read_cons (c : Host.Cell) (m : Memory) (a : Nat) :
    Memory.read (c :: m) a = if a = c.1 then c.2 else Memory.read m a := rfl

theorem wf_iff (m : Memory) :
    Memory.wf m = true ↔ (m.Pairwise fun x y => x.1 < y.1) ∧ ∀ c ∈ m, c.2 ≠ 0 := by
  simp [Memory.wf, Memory.unlisted]

@[simp] theorem wf_nil : Memory.wf [] = true := rfl

/-- An address below every listed one reads as unlisted. -/
theorem read_of_lt {m : Memory} {a : Nat} (h : ∀ c ∈ m, a < c.1) : Memory.read m a = 0 := by
  induction m with
  | nil => rfl
  | cons c m ih =>
    have := h c (by simp)
    rw [read_cons, if_neg (by omega), ih fun d hd => h d (by simp [hd])]

/-- A write leaves every other byte alone. -/
theorem read_write_ne {a x : Nat} (v : Byte) (h : x ≠ a) (m : Memory) :
    Memory.read (Memory.write m a v) x = Memory.read m x := by
  induction m with
  | nil => simp only [Memory.write]; split <;> simp [read_cons, h]
  | cons c m ih =>
    simp only [Memory.write]
    split
    · split <;> simp [read_cons, h]
    · split
      · next hac =>
        split <;> simp [read_cons, ← hac, h]
      · simp [read_cons, ih]

/-- A read after a write to the same address gives the value written. -/
theorem read_write_same {m : Memory} (hm : Memory.wf m = true) (a : Nat) (v : Byte) :
    Memory.read (Memory.write m a v) a = v := by
  rw [wf_iff] at hm
  obtain ⟨hs, -⟩ := hm
  induction m with
  | nil =>
    simp only [Memory.write]
    split
    · next hv => exact (show v = 0 from hv).symm
    · simp [read_cons]
  | cons c m ih =>
    have hc := (List.pairwise_cons.1 hs).1
    simp only [Memory.write]
    split
    · next hlt =>
      split
      · next hv =>
        rw [read_cons, if_neg (by omega), show v = 0 from hv]
        exact read_of_lt fun d hd => lt_trans hlt (hc d hd)
      · simp [read_cons]
    · split
      · next hac =>
        split
        · next hv => rw [show v = 0 from hv, hac]; exact read_of_lt hc
        · simp [read_cons]
      · next hne => rw [read_cons, if_neg hne, ih (List.pairwise_cons.1 hs).2]

theorem read_write {m : Memory} (hm : Memory.wf m = true) (a x : Nat) (v : Byte) :
    Memory.read (Memory.write m a v) x = if x = a then v else Memory.read m x := by
  split
  · next h => rw [h, read_write_same hm]
  · next h => exact read_write_ne v h m

/-- Every listed address of a written memory was listed or is the one written. -/
theorem mem_write {m : Memory} {a : Nat} {v : Byte} {c : Host.Cell} (h : c ∈ Memory.write m a v) :
    c ∈ m ∨ c = (a, v) ∧ v ≠ 0 := by
  have hz : ¬v = Memory.unlisted → v ≠ 0 := id
  induction m with
  | nil =>
    simp only [Memory.write] at h
    split at h
    · simp at h
    · next hv => exact .inr ⟨by simpa using h, hz hv⟩
  | cons d m ih =>
    simp only [Memory.write] at h
    split at h
    · split at h
      · exact .inl h
      · next hv =>
        rcases List.mem_cons.1 h with h | h
        · exact .inr ⟨h, hz hv⟩
        · exact .inl h
    · split at h
      · split at h
        · exact .inl (List.mem_cons_of_mem _ h)
        · next hv =>
          rcases List.mem_cons.1 h with h | h
          · exact .inr ⟨h, hz hv⟩
          · exact .inl (List.mem_cons_of_mem _ h)
      · rcases List.mem_cons.1 h with h | h
        · exact .inl (h ▸ List.mem_cons_self)
        · exact (ih h).imp (List.mem_cons_of_mem _) id

/-- A write keeps the canonical form. -/
theorem wf_write {m : Memory} (hm : Memory.wf m = true) (a : Nat) (v : Byte) : Memory.wf (Memory.write m a v) = true := by
  rw [wf_iff] at hm ⊢
  obtain ⟨hs, hz⟩ := hm
  refine ⟨?_, fun c hc => ?_⟩
  · induction m with
    | nil => simp only [Memory.write]; split <;> simp
    | cons c m ih =>
      obtain ⟨hc, hs'⟩ := List.pairwise_cons.1 hs
      simp only [Memory.write]
      split
      · next hlt =>
        split
        · exact hs
        · refine List.pairwise_cons.2 ⟨fun d hd => ?_, hs⟩
          rcases List.mem_cons.1 hd with rfl | hd
          · exact hlt
          · exact lt_trans hlt (hc d hd)
      · split
        · next hac =>
          split
          · exact hs'
          · exact List.pairwise_cons.2 ⟨fun d hd => by simpa [hac] using hc d hd, hs'⟩
        · next h1 h2 =>
          refine List.pairwise_cons.2 ⟨fun d hd => ?_, ih hs' fun d hd => hz d (by simp [hd])⟩
          rcases mem_write hd with hd | ⟨rfl, -⟩
          · exact hc d hd
          · show c.1 < a
            omega
  · rcases mem_write hc with h | ⟨rfl, hv⟩
    · exact hz c h
    · exact hv

/-- A write of bytes leaves every byte outside its range alone. -/
theorem read_writeBytes_outside : ∀ (bs : List Byte) (m : Memory) (a x : Nat), x < a ∨ a + bs.length ≤ x →
    Memory.read (Memory.writeBytes m a bs) x = Memory.read m x
  | [], _, _, _, _ => rfl
  | b :: bs, m, a, x, h => by
    simp only [List.length_cons] at h
    rw [Memory.writeBytes, read_writeBytes_outside bs _ _ _ (by omega), read_write_ne b (by omega)]

/-- Byte i of a written range is byte i of the bytes written. -/
theorem read_writeBytes_inside : ∀ (bs : List Byte) {m : Memory} (_ : Memory.wf m = true) (a i : Nat) (hi : i < bs.length),
    Memory.read (Memory.writeBytes m a bs) (a + i) = bs[i]
  | b :: bs, m, hm, a, 0, _ => by
    rw [Memory.writeBytes, read_writeBytes_outside bs _ _ _ (by omega)]
    exact read_write_same hm a b
  | b :: bs, m, hm, a, i + 1, hi => by
    have := read_writeBytes_inside bs (wf_write hm a b) (a + 1) i (by simpa using hi)
    rw [Memory.writeBytes, show a + (i + 1) = a + 1 + i by omega, this]
    rfl

/-- A write of bytes keeps the canonical form. -/
theorem wf_writeBytes : ∀ (bs : List Byte) {m : Memory} (_ : Memory.wf m = true) (a : Nat),
    Memory.wf (Memory.writeBytes m a bs) = true
  | [], _, hm, _ => hm
  | b :: bs, _, hm, a => wf_writeBytes bs (wf_write hm a b) (a + 1)

/-- Every listed address of a written memory was listed or lies in the range written. -/
theorem mem_writeBytes : ∀ (bs : List Byte) {m : Memory} {a : Nat} {c : Host.Cell}, c ∈ Memory.writeBytes m a bs →
    c ∈ m ∨ a ≤ c.1 ∧ c.1 < a + bs.length
  | [], _, _, _, h => .inl h
  | b :: bs, m, a, c, h => by
    rcases mem_writeBytes bs h with h | h
    · rcases mem_write h with h | ⟨rfl, -⟩
      · exact .inl h
      · exact .inr (by simp)
    · exact .inr (by simp only [List.length_cons]; omega)

@[simp] theorem writeBytes_nil (m : Memory) (a : Nat) : Memory.writeBytes m a [] = m := rfl

@[simp] theorem length_readBytes (m : Memory) (a n : Nat) : (Memory.readBytes m a n).length = n := by
  simp [Memory.readBytes]

@[simp] theorem getElem_readBytes (m : Memory) (a n i : Nat) (h : i < (Memory.readBytes m a n).length) :
    (Memory.readBytes m a n)[i] = Memory.read m (a + i) := by
  simp [Memory.readBytes]

/-- A range read in two parts. -/
theorem readBytes_add (m : Memory) (a n k : Nat) :
    Memory.readBytes m a (n + k) = Memory.readBytes m a n ++ Memory.readBytes m (a + n) k := by
  apply List.ext_getElem
  · simp
  · intro i h1 h2
    rw [List.getElem_append]
    split
    · simp
    · next h =>
      simp only [length_readBytes] at h
      simp [show a + n + (i - n) = a + i by omega]

/-- Two memories that agree on a range give the same bytes. -/
theorem readBytes_congr {m m' : Memory} {a n : Nat} (h : ∀ x, a ≤ x → x < a + n → Memory.read m x = Memory.read m' x) :
    Memory.readBytes m a n = Memory.readBytes m' a n := by
  apply List.ext_getElem
  · simp
  · intro i h1 h2
    simp only [length_readBytes] at h1
    simpa using h (a + i) (by omega) (by omega)

/-- Scrambled addresses: every other byte is left alone. -/
theorem read_scramble : ∀ (as : List Nat) (s : State) {x : Nat}, x ∉ as →
    Memory.read (s.scramble as).mem x = Memory.read s.mem x
  | [], _, _, _ => rfl
  | a :: as, s, x, h => by
    simp only [List.mem_cons, not_or] at h
    rw [State.scramble, read_scramble as _ h.2]
    exact read_write_ne _ h.1 _

/-- Scrambling keeps the canonical form. -/
theorem wf_scramble : ∀ (as : List Nat) {s : State}, Memory.wf s.mem = true → Memory.wf (s.scramble as).mem = true
  | [], _, h => h
  | _ :: as, _, h => wf_scramble as (wf_write h _ _)

/-- Every listed address of a scrambled memory was listed or is a scrambled one. -/
theorem mem_scramble : ∀ (as : List Nat) {s : State} {c : Host.Cell}, c ∈ (s.scramble as).mem →
    c ∈ s.mem ∨ c.1 ∈ as
  | [], _, _, h => .inl h
  | a :: as, s, c, h => by
    rcases mem_scramble as h with h | h
    · rcases mem_write h with h | ⟨rfl, -⟩
      · exact .inl h
      · exact .inr (by simp)
    · exact .inr (by simp [h])

end Sys2Proof.Machine
end

