-- ==== Sys2Proof/Laws/State.lean ====
section
/-! SUPPORT. One lemma per field per update of the state, so that no later proof unfolds a record update. -/

namespace Sys2Proof.Machine

section setErr
variable (e : ErrCode) (s : State)
@[simp] theorem setErr_cfg : (s.setErr e).cfg = s.cfg := rfl
@[simp] theorem setErr_cur : (s.setErr e).cur = s.cur := rfl
@[simp] theorem setErr_parked : (s.setErr e).parked = s.parked := rfl
@[simp] theorem setErr_mem : (s.setErr e).mem = s.mem := rfl
@[simp] theorem setErr_queue : (s.setErr e).queue = s.queue := rfl
@[simp] theorem setErr_rdata : (s.setErr e).rdata = s.rdata := rfl
@[simp] theorem setErr_checks : (s.setErr e).checks = s.checks := rfl
@[simp] theorem setErr_freeCtr : (s.setErr e).freeCtr = s.freeCtr := rfl
@[simp] theorem setErr_ctx : (s.setErr e).eng.ctx = s.eng.ctx := rfl
@[simp] theorem setErr_arg0 : (s.setErr e).eng.arg0 = s.eng.arg0 := rfl
@[simp] theorem setErr_arg1 : (s.setErr e).eng.arg1 = s.eng.arg1 := rfl
@[simp] theorem setErr_arg2 : (s.setErr e).eng.arg2 = s.eng.arg2 := rfl
@[simp] theorem setErr_err : (s.setErr e).eng.err = e := rfl
@[simp] theorem setErr_ccount : (s.setErr e).eng.ccount = s.eng.ccount := rfl
end setErr

section wipe
variable (s : State)
@[simp] theorem wipe_cfg : s.wipe.cfg = s.cfg := rfl
@[simp] theorem wipe_cur : s.wipe.cur = s.cur := rfl
@[simp] theorem wipe_parked : s.wipe.parked = s.parked := rfl
@[simp] theorem wipe_mem : s.wipe.mem = s.mem := rfl
@[simp] theorem wipe_queue : s.wipe.queue = s.queue := rfl
@[simp] theorem wipe_rdata : s.wipe.rdata = s.rdata := rfl
@[simp] theorem wipe_checks : s.wipe.checks = s.checks := rfl
@[simp] theorem wipe_freeCtr : s.wipe.freeCtr = s.freeCtr := rfl
@[simp] theorem wipe_ctx : s.wipe.eng.ctx = .finalized := rfl
@[simp] theorem wipe_arg0 : s.wipe.eng.arg0 = s.eng.arg0 := rfl
@[simp] theorem wipe_arg1 : s.wipe.eng.arg1 = s.eng.arg1 := rfl
@[simp] theorem wipe_arg2 : s.wipe.eng.arg2 = s.eng.arg2 := rfl
@[simp] theorem wipe_err : s.wipe.eng.err = s.eng.err := rfl
@[simp] theorem wipe_ccount : s.wipe.eng.ccount = s.eng.ccount := rfl
end wipe

section putHashing
variable (alg : Alg) (x : Hashing alg.family) (s : State)
@[simp] theorem putHashing_cfg : (s.putHashing alg x).cfg = s.cfg := rfl
@[simp] theorem putHashing_cur : (s.putHashing alg x).cur = s.cur := rfl
@[simp] theorem putHashing_parked : (s.putHashing alg x).parked = s.parked := rfl
@[simp] theorem putHashing_mem : (s.putHashing alg x).mem = s.mem := rfl
@[simp] theorem putHashing_queue : (s.putHashing alg x).queue = s.queue := rfl
@[simp] theorem putHashing_rdata : (s.putHashing alg x).rdata = s.rdata := rfl
@[simp] theorem putHashing_checks : (s.putHashing alg x).checks = s.checks := rfl
@[simp] theorem putHashing_freeCtr : (s.putHashing alg x).freeCtr = s.freeCtr := rfl
@[simp] theorem putHashing_ctx : (s.putHashing alg x).eng.ctx = .active alg x.act := rfl
@[simp] theorem putHashing_arg0 : (s.putHashing alg x).eng.arg0 = s.eng.arg0 := rfl
@[simp] theorem putHashing_arg1 : (s.putHashing alg x).eng.arg1 = s.eng.arg1 := rfl
@[simp] theorem putHashing_arg2 : (s.putHashing alg x).eng.arg2 = s.eng.arg2 := rfl
@[simp] theorem putHashing_err : (s.putHashing alg x).eng.err = s.eng.err := rfl
@[simp] theorem putHashing_ccount : (s.putHashing alg x).eng.ccount = x.ccount := rfl
end putHashing

section deliverDigest
variable (alg : Alg) (x : Hashing alg.family) (s : State)
@[simp] theorem deliverDigest_cfg : (deliverDigest alg x s).cfg = s.cfg := rfl
@[simp] theorem deliverDigest_cur : (deliverDigest alg x s).cur = s.cur := rfl
@[simp] theorem deliverDigest_parked : (deliverDigest alg x s).parked = s.parked := rfl
@[simp] theorem deliverDigest_mem :
    (deliverDigest alg x s).mem = Memory.writeBytes s.mem s.dst (extract alg (padAndCompress x).act.h) := rfl
@[simp] theorem deliverDigest_queue : (deliverDigest alg x s).queue = s.queue := rfl
@[simp] theorem deliverDigest_rdata : (deliverDigest alg x s).rdata = s.rdata := rfl
@[simp] theorem deliverDigest_checks : (deliverDigest alg x s).checks = s.checks := rfl
@[simp] theorem deliverDigest_freeCtr : (deliverDigest alg x s).freeCtr = s.freeCtr := rfl
@[simp] theorem deliverDigest_ctx : (deliverDigest alg x s).eng.ctx = .finalized := rfl
@[simp] theorem deliverDigest_arg0 : (deliverDigest alg x s).eng.arg0 = s.eng.arg0 := rfl
@[simp] theorem deliverDigest_arg1 : (deliverDigest alg x s).eng.arg1 = s.eng.arg1 := rfl
@[simp] theorem deliverDigest_arg2 : (deliverDigest alg x s).eng.arg2 = s.eng.arg2 := rfl
@[simp] theorem deliverDigest_err : (deliverDigest alg x s).eng.err = .ok := rfl
@[simp] theorem deliverDigest_ccount : (deliverDigest alg x s).eng.ccount = (padAndCompress x).ccount := rfl
end deliverDigest

section resetEngine
variable (s : State)
@[simp] theorem resetEngine_cfg : (resetEngine s).cfg = s.cfg := rfl
@[simp] theorem resetEngine_cur : (resetEngine s).cur = s.cur := rfl
@[simp] theorem resetEngine_parked : (resetEngine s).parked = s.parked := rfl
@[simp] theorem resetEngine_eng : (resetEngine s).eng = Engine.reset := rfl
@[simp] theorem resetEngine_mem : (resetEngine s).mem = s.mem := rfl
@[simp] theorem resetEngine_queue : (resetEngine s).queue = s.queue := rfl
@[simp] theorem resetEngine_rdata : (resetEngine s).rdata = s.rdata := rfl
@[simp] theorem resetEngine_checks : (resetEngine s).checks = s.checks := rfl
@[simp] theorem resetEngine_freeCtr : (resetEngine s).freeCtr = s.freeCtr := rfl
end resetEngine

section checkRegister
variable (f : BitField) (v : Nat) (r : Register) (s : State)
@[simp] theorem checkRegister_cfg : (checkRegister f v r s).cfg = s.cfg := rfl
@[simp] theorem checkRegister_cur : (checkRegister f v r s).cur = s.cur := rfl
@[simp] theorem checkRegister_parked : (checkRegister f v r s).parked = s.parked := rfl
@[simp] theorem checkRegister_eng : (checkRegister f v r s).eng = s.eng := rfl
@[simp] theorem checkRegister_mem : (checkRegister f v r s).mem = s.mem := rfl
@[simp] theorem checkRegister_queue : (checkRegister f v r s).queue = s.queue := rfl
@[simp] theorem checkRegister_rdata : (checkRegister f v r s).rdata = s.rdata := rfl
@[simp] theorem checkRegister_freeCtr : (checkRegister f v r s).freeCtr = s.freeCtr := rfl
end checkRegister

section scramble
@[simp] theorem scramble_nil (s : State) : s.scramble [] = s := rfl

@[simp] theorem scramble_cfg : ∀ (as : List Nat) (s : State), (s.scramble as).cfg = s.cfg
  | [], _ => rfl
  | _ :: as, _ => scramble_cfg as _

@[simp] theorem scramble_cur : ∀ (as : List Nat) (s : State), (s.scramble as).cur = s.cur
  | [], _ => rfl
  | _ :: as, _ => scramble_cur as _

@[simp] theorem scramble_parked : ∀ (as : List Nat) (s : State), (s.scramble as).parked = s.parked
  | [], _ => rfl
  | _ :: as, _ => scramble_parked as _

@[simp] theorem scramble_eng : ∀ (as : List Nat) (s : State), (s.scramble as).eng = s.eng
  | [], _ => rfl
  | _ :: as, _ => scramble_eng as _

@[simp] theorem scramble_queue : ∀ (as : List Nat) (s : State), (s.scramble as).queue = s.queue
  | [], _ => rfl
  | _ :: as, _ => scramble_queue as _

@[simp] theorem scramble_rdata : ∀ (as : List Nat) (s : State), (s.scramble as).rdata = s.rdata
  | [], _ => rfl
  | _ :: as, _ => scramble_rdata as _

@[simp] theorem scramble_checks : ∀ (as : List Nat) (s : State), (s.scramble as).checks = s.checks
  | [], _ => rfl
  | _ :: as, _ => scramble_checks as _
end scramble

/-- The phase of each shape. -/
@[simp] theorem phase_invalid : Ctx.invalid.phase = 0 := rfl
@[simp] theorem phase_active (alg : Alg) (a : Active alg.family) : (Ctx.active alg a).phase = 1 := rfl
@[simp] theorem phase_finalized : Ctx.finalized.phase = 2 := rfl

/-- PHASE 1 is the ACTIVE shape. -/
theorem phase_eq_one_iff (c : Ctx) : c.phase = 1 ↔ ∃ alg a, c = .active alg a := by
  cases c with
  | invalid => simp
  | finalized => simp
  | active alg a => simp

end Sys2Proof.Machine
end

