-- ==== Sys2Proof/Laws/Words.lean ====
section
/-! SUPPORT. The family parameters as facts, lengths of byte strings, and the bit-counter addition. -/

namespace Sys2Proof.Machine

theorem B_pos (f : Family) : 0 < f.B := by cases f <;> decide

theorem L_lt_B (f : Family) : f.L + 1 < f.B := by cases f <;> decide

@[simp] theorem length_beStore (k v : Nat) : (beStore k v).length = k := by simp [beStore]

@[simp] theorem length_hexPair (x : Byte) : (hexPair x).length = 2 := rfl

@[simp] theorem hexText_nil : hexText [] = [] := rfl

@[simp] theorem hexText_cons (x : Byte) (bs : List Byte) : hexText (x :: bs) = hexPair x ++ hexText bs := rfl

theorem length_hexText (bs : List Byte) : (hexText bs).length = 2 * bs.length := by
  induction bs with
  | nil => rfl
  | cons x bs ih => rw [hexText_cons, List.length_append, ih, length_hexPair, List.length_cons]; omega

theorem beLoad_snoc (s : List Byte) (b : Byte) : beLoad (s ++ [b]) = beLoad s * 256 + b.toNat := by
  simp [beLoad, List.foldl_append]

theorem beLoad_lt (s : List Byte) : beLoad s < 256 ^ s.length := by
  induction s using List.reverseRecOn with
  | nil => simp [beLoad]
  | append_singleton s b ih =>
    have := b.isLt
    rw [beLoad_snoc, List.length_append, List.length_singleton, Nat.pow_succ]
    omega

/-- `BC_ADD(k)` is addition on the whole counter; the two-word form of E512 carries into the high word (R108). -/
theorem bcAdd_toNat (f : Family) (bc : BitVec f.LW) (k : Nat) : (bcAdd f bc k).toNat = (bc.toNat + k) % 2 ^ f.LW := by
  cases f with
  | e1 => simp [bcAdd]
  | e256 => simp [bcAdd]
  | e512 =>
    have hb : bc.toNat < 2 ^ 128 := bc.isLt
    have hlo : (bcLo bc).toNat = bc.toNat % 2 ^ 64 := by simp [bcLo]
    have hhi : (bcHi bc).toNat = bc.toNat / 2 ^ 64 := by
      simp only [bcHi, BitVec.extractLsb'_toNat, Nat.shiftRight_eq_div_pow]
      omega
    simp only [bcAdd, hlo]
    rw [BitVec.toNat_append, Nat.shiftLeft_eq, ← Nat.shiftLeft_eq,
      ← Nat.shiftLeft_add_eq_or_of_lt (BitVec.isLt _), Nat.shiftLeft_eq]
    simp only [BitVec.toNat_add, BitVec.toNat_ofNat, hhi]
    show _ = (bc.toNat + k) % 2 ^ 128
    omega

/-- Two additions to the counter are one. -/
theorem bcAdd_bcAdd (f : Family) (bc : BitVec f.LW) (j k : Nat) : bcAdd f (bcAdd f bc j) k = bcAdd f bc (j + k) := by
  apply BitVec.eq_of_toNat_eq
  rw [bcAdd_toNat, bcAdd_toNat, bcAdd_toNat, Nat.mod_add_mod, Nat.add_assoc]

@[simp] theorem bcAdd_zero (f : Family) (bc : BitVec f.LW) : bcAdd f bc 0 = bc := by
  apply BitVec.eq_of_toNat_eq
  rw [bcAdd_toNat, Nat.add_zero, Nat.mod_eq_of_lt bc.isLt]

end Sys2Proof.Machine
end

