-- ==== Sys2Proof/Laws/Streaming.lean ====
section
/-! SUPPORT. What one absorbed byte does, and how chunks of bytes compose. -/

namespace Sys2Proof.Machine

/-- A byte that does not complete the block joins the buffer (R205). -/
theorem absorb_short {f : Family} {x : Hashing f} (b : Byte) (h : x.act.buf.length + 1 ≠ f.B) :
    absorb x b = ⟨⟨x.act.h, bcAdd f x.act.bc 8, x.act.buf ++ [b]⟩, x.ccount⟩ := by
  simp [absorb, h]

/-- A byte that completes the block has it compressed and the buffer emptied (R205, R206). -/
theorem absorb_full {f : Family} {x : Hashing f} (b : Byte) (h : x.act.buf.length + 1 = f.B) :
    absorb x b = ⟨⟨compress f x.act.h (x.act.buf ++ [b]), bcAdd f x.act.bc 8, []⟩, x.ccount + 1⟩ := by
  simp [absorb, h, compressBlock]

@[simp] theorem absorbAll_nil {f : Family} (x : Hashing f) : absorbAll x [] = x := rfl

@[simp] theorem absorbAll_cons {f : Family} (x : Hashing f) (b : Byte) (m : List Byte) :
    absorbAll x (b :: m) = absorbAll (absorb x b) m := rfl

/-- Absorbing two chunks is absorbing their concatenation (R204). -/
theorem absorbAll_append {f : Family} (x : Hashing f) (m m' : List Byte) :
    absorbAll x (m ++ m') = absorbAll (absorbAll x m) m' := List.foldl_append

/-- A chunk that stays inside the pending block only joins the buffer. -/
theorem absorbAll_short {f : Family} {x : Hashing f} {m : List Byte} (h : x.act.buf.length + m.length < f.B) :
    absorbAll x m = ⟨⟨x.act.h, bcAdd f x.act.bc (8 * m.length), x.act.buf ++ m⟩, x.ccount⟩ := by
  induction m generalizing x with
  | nil => simp
  | cons b m ih =>
    simp only [List.length_cons] at h
    rw [absorbAll_cons, absorb_short b (by omega), ih (by simp only [List.length_append, List.length_singleton]; omega)]
    simp [bcAdd_bcAdd, Nat.mul_add, Nat.add_comm]

/-- A chunk that exactly completes the pending block has it compressed. -/
theorem absorbAll_fill {f : Family} {x : Hashing f} {m : List Byte} (hx : x.act.buf.length < f.B)
    (h : x.act.buf.length + m.length = f.B) :
    absorbAll x m = ⟨⟨compress f x.act.h (x.act.buf ++ m), bcAdd f x.act.bc (8 * m.length), []⟩, x.ccount + 1⟩ := by
  rcases List.eq_nil_or_concat m with rfl | ⟨l, b, rfl⟩
  · simp only [List.length_nil, Nat.add_zero] at h; omega
  · simp only [List.concat_eq_append, List.length_append, List.length_singleton] at h ⊢
    rw [absorbAll_append, absorbAll_short (m := l) (by omega), absorbAll_cons, absorbAll_nil,
      absorb_full b (by simp only [List.length_append]; omega)]
    simp [bcAdd_bcAdd, Nat.mul_add]

@[simp] theorem blocksOf_nil (f : Family) : blocksOf f [] = [] := by simp [blocksOf]

@[simp] theorem length_blocksOf (f : Family) (M : List Byte) : (blocksOf f M).length = M.length / f.B := by
  simp [blocksOf]

/-- The blocks of a message that begins with whole blocks are those blocks and then the blocks of the rest. -/
theorem blocksOf_append {f : Family} {M N : List Byte} (h : M.length % f.B = 0) :
    blocksOf f (M ++ N) = blocksOf f M ++ blocksOf f N := by
  have hB := B_pos f
  obtain ⟨q, hq⟩ := Nat.dvd_of_mod_eq_zero h
  have hd : (M ++ N).length / f.B = q + N.length / f.B := by
    rw [List.length_append, hq, Nat.mul_add_div hB]
  have hdM : M.length / f.B = q := by rw [hq, Nat.mul_div_cancel_left _ hB]
  rw [blocksOf, hd, List.range_add, List.map_append, List.map_map, blocksOf, hdM, blocksOf]
  congr 1
  · apply List.map_congr_left
    intro k hk
    have hk : k < q := List.mem_range.1 hk
    have : (k + 1) * f.B ≤ M.length := by rw [hq, Nat.mul_comm]; exact Nat.mul_le_mul_left _ hk
    rw [Nat.add_mul, Nat.one_mul] at this
    rw [List.drop_append_of_le_length (by omega), List.take_append_of_le_length (by rw [List.length_drop]; omega)]
  · apply List.map_congr_left
    intro k _
    have : (q + k) * f.B = M.length + k * f.B := by rw [hq, Nat.add_mul, Nat.mul_comm q]
    simp [Function.comp, this, List.drop_append, List.drop_eq_nil_of_le (Nat.le_add_right M.length (k * f.B))]

/-- One block's worth of bytes is one block. -/
theorem blocksOf_block {f : Family} {N : List Byte} (h : N.length = f.B) : blocksOf f N = [N] := by
  rw [blocksOf, h, Nat.div_self (B_pos f)]
  simp [List.range_succ, ← h]

/-- Less than a block's worth of bytes is no block. -/
theorem blocksOf_short {f : Family} {N : List Byte} (h : N.length < f.B) : blocksOf f N = [] := by
  rw [blocksOf, Nat.div_eq_of_lt h]
  rfl

/-- A message is its whole blocks and then fewer than B bytes. -/
theorem split_blocks (f : Family) (M : List Byte) :
    ∃ P T, M = P ++ T ∧ P.length = M.length / f.B * f.B ∧ T = M.drop (M.length / f.B * f.B) ∧
      T.length = M.length % f.B ∧ blocksOf f M = blocksOf f P := by
  have hB := B_pos f
  have hle : M.length / f.B * f.B ≤ M.length := Nat.div_mul_le_self _ _
  have hT : (M.drop (M.length / f.B * f.B)).length = M.length % f.B := by
    rw [List.length_drop, Nat.mod_def, Nat.mul_comm f.B]
  have hP : (M.take (M.length / f.B * f.B)).length = M.length / f.B * f.B := List.length_take_of_le hle
  refine ⟨M.take (M.length / f.B * f.B), _, (List.take_append_drop _ M).symm, hP, rfl, hT, ?_⟩
  conv_lhs => rw [← List.take_append_drop (M.length / f.B * f.B) M]
  rw [blocksOf_append (by rw [hP]; exact Nat.mul_mod_left _ _),
    blocksOf_short (N := M.drop _) (by rw [hT]; exact Nat.mod_lt _ hB), List.append_nil]

/-- The pending bytes of a represented message. -/
theorem Represents.length_buf {alg : Alg} {M : List Byte} {a : Active alg.family} (h : Represents alg M a) :
    a.buf.length = M.length % alg.family.B := by
  rw [h.buf, List.length_drop, Nat.mod_def, Nat.mul_comm alg.family.B]

/-- `used` of a represented message (R36). -/
theorem Represents.used {alg : Alg} {M : List Byte} {a : Active alg.family} (h : Represents alg M a) :
    a.used = M.length % alg.family.B := by
  rw [Active.used, h.bc, Nat.mul_div_cancel_left _ (by decide)]

/-- INIT's context is that of the empty message. -/
theorem represents_init (alg : Alg) : Represents alg [] (initStep alg).act where
  short := by cases alg <;> decide
  bc := by simp [initStep]
  h := by simp [initStep, foldBlocks]
  buf := by simp [initStep]

/-- One absorbed byte lengthens the represented message by that byte. -/
theorem Represents.absorb {alg : Alg} {M : List Byte} {x : Hashing alg.family} (h : Represents alg M x.act) (b : Byte)
    (hs : 8 * (M.length + 1) < 2 ^ alg.family.LW) : Represents alg (M ++ [b]) (Machine.absorb x b).act := by
  have hB := B_pos alg.family
  have hl := h.length_buf
  obtain ⟨P, T, hM, hP, hT, hTl, hblk⟩ := split_blocks alg.family M
  have hlen : M.length = P.length + T.length := by rw [hM, List.length_append]
  have hPm : P.length % alg.family.B = 0 := by rw [hP]; exact Nat.mul_mod_left _ _
  have hbuf : x.act.buf = T := by rw [h.buf, hT]
  have hbc : (bcAdd alg.family x.act.bc 8).toNat = 8 * (M ++ [b]).length := by
    rw [bcAdd_toNat, h.bc, Nat.mod_eq_of_lt (by omega)]
    simp [Nat.mul_add]
  have hTlt : T.length < alg.family.B := by rw [hTl]; exact Nat.mod_lt _ hB
  have happ : M ++ [b] = P ++ (T ++ [b]) := by rw [hM, List.append_assoc]
  by_cases hfull : T.length + 1 = alg.family.B
  · rw [absorb_full b (by rw [hbuf, hfull])]
    have hq : (M ++ [b]).length / alg.family.B * alg.family.B = (M ++ [b]).length := by
      apply Nat.div_mul_cancel
      apply Nat.dvd_of_mod_eq_zero
      rw [happ, List.length_append, List.length_append, List.length_singleton, hfull, Nat.add_mod_right, hPm]
    refine ⟨by simpa using hs, hbc, ?_, ?_⟩
    · show compress _ x.act.h (x.act.buf ++ [b]) = _
      rw [happ, blocksOf_append hPm, blocksOf_block (N := T ++ [b]) (by simpa using hfull), ← hblk, hbuf, h.h]
      simp [foldBlocks]
    · rw [hq]; simp
  · rw [absorb_short b (by rw [hbuf]; exact hfull)]
    have hsh : (T ++ [b]).length < alg.family.B := by simp only [List.length_append, List.length_singleton]; omega
    have hq : (M ++ [b]).length / alg.family.B * alg.family.B = P.length := by
      obtain ⟨q, hq⟩ := Nat.dvd_of_mod_eq_zero hPm
      rw [happ, List.length_append, hq, Nat.mul_add_div hB, Nat.div_eq_of_lt hsh, Nat.add_zero, Nat.mul_comm]
    refine ⟨by simpa using hs, hbc, ?_, ?_⟩
    · show x.act.h = _
      rw [happ, blocksOf_append hPm, blocksOf_short hsh, List.append_nil, ← hblk, h.h]
    · show x.act.buf ++ [b] = _
      rw [hq, happ, hbuf]
      simp

/-- A chunk lengthens the represented message by that chunk. -/
theorem Represents.absorbAll {alg : Alg} {M : List Byte} {x : Hashing alg.family} (h : Represents alg M x.act)
    (m : List Byte) (hs : 8 * (M.length + m.length) < 2 ^ alg.family.LW) :
    Represents alg (M ++ m) (Machine.absorbAll x m).act := by
  induction m generalizing x M with
  | nil => simpa using h
  | cons b m ih =>
    simp only [List.length_cons] at hs
    have := ih (h.absorb b (by omega)) (by simp only [List.length_append, List.length_singleton]; omega)
    simpa using this

/-- The compressions of a chunk: `(used + LEN) div B` (R211). -/
theorem ccount_absorbAll {f : Family} (x : Hashing f) (m : List Byte) (hx : x.act.buf.length < f.B) :
    (absorbAll x m).ccount = x.ccount + BitVec.ofNat 64 ((x.act.buf.length + m.length) / f.B) := by
  have hB := B_pos f
  induction m generalizing x with
  | nil => simp [Nat.div_eq_of_lt hx]
  | cons b m ih =>
    rw [absorbAll_cons]
    by_cases h : x.act.buf.length + 1 = f.B
    · rw [absorb_full b h, ih _ (by simpa using hB)]
      have : (x.act.buf.length + (b :: m).length) / f.B = m.length / f.B + 1 := by
        rw [List.length_cons, show x.act.buf.length + (m.length + 1) = m.length + f.B by omega, Nat.add_div_right _ hB]
      rw [this, List.length_nil, Nat.zero_add, BitVec.ofNat_add]
      simp [BitVec.add_assoc, BitVec.add_comm]
    · rw [absorb_short b h, ih _ (by simp only [List.length_append, List.length_singleton]; omega)]
      simp [Nat.add_assoc, Nat.add_comm, Nat.add_left_comm]

/-- The buffer stays shorter than a block. -/
theorem length_buf_absorbAll {f : Family} (x : Hashing f) (m : List Byte) (hx : x.act.buf.length < f.B) :
    (absorbAll x m).act.buf.length < f.B := by
  induction m generalizing x with
  | nil => exact hx
  | cons b m ih =>
    rw [absorbAll_cons]
    apply ih
    by_cases h : x.act.buf.length + 1 = f.B
    · rw [absorb_full b h]; exact B_pos f
    · rw [absorb_short b h]; simp only [List.length_append, List.length_singleton]; omega

end Sys2Proof.Machine
end

