-- ==== Sys2Proof/Laws/Commands.lean ====
section
/-! SUPPORT. What a command can do, said once: the checks as inequalities, one lemma per family of commands, and the
inversion of `exec`. -/

namespace Sys2Proof.Machine

@[simp] theorem raise_eq (e : ErrCode) (s : State) : s.raise e = .next (s.setErr e) := rfl

theorem inRange_iff (c : Config) (a n : Nat) : inRange c a n = true ↔ n = 0 ∨ a + n ≤ 2 ^ c.addrW := by simp [inRange]

theorem inRange_false_iff (c : Config) (a n : Nat) : inRange c a n = false ↔ 0 < n ∧ 2 ^ c.addrW < a + n := by
  simp [inRange, Nat.pos_iff_ne_zero]

theorem tooLong_iff {f : Family} (a : Active f) (n : Nat) : tooLong a n = true ↔ 2 ^ f.LW ≤ a.bc.toNat + 8 * n := by
  simp [tooLong]

theorem overlaps_iff (src len dst : Nat) :
    overlaps src len dst = true ↔ 0 < len ∧ src < dst + 2 * len ∧ dst < src + len := by simp [overlaps, and_assoc]

theorem rangesMeet_iff (a n b m : Nat) :
    rangesMeet a n b m = true ↔ ∃ x, a ≤ x ∧ x < a + n ∧ b ≤ x ∧ x < b + m := by
  simp only [rangesMeet, Bool.and_eq_true, decide_eq_true_eq]
  constructor
  · rintro ⟨⟨⟨h1, h2⟩, h3⟩, h4⟩
    exact ⟨max a b, by omega⟩
  · rintro ⟨x, h⟩
    omega

theorem plainRange_iff (c : Config) (a n : Nat) :
    plainRange c a n = true ↔ ∀ r ∈ c.sideEffect, ∀ x, a ≤ x → x < a + n → ¬(r.base ≤ x ∧ x < r.base + r.size) := by
  simp only [plainRange, List.all_eq_true, Bool.not_eq_true', ← Bool.not_eq_true, rangesMeet_iff]
  constructor
  · intro h r hr x h1 h2 h3
    exact h r hr ⟨x, h1, h2, h3⟩
  · rintro h r hr ⟨x, h1, h2, h3⟩
    exact h r hr x h1 h2 h3

/-- A part of a plain range is plain. -/
theorem plainRange_mono {c : Config} {a n b m : Nat} (h : plainRange c a n = true) (hb : m = 0 ∨ a ≤ b ∧ b + m ≤ a + n) :
    plainRange c b m = true := by
  rw [plainRange_iff] at h ⊢
  exact fun r hr x h1 h2 => h r hr x (by omega) (by omega)

theorem plainRange_of_nil {c : Config} (h : c.sideEffect = []) (a n : Nat) : plainRange c a n = true := by
  simp [plainRange, h]

@[simp] theorem plainRange_zero (c : Config) (a : Nat) : plainRange c a 0 = true := by
  rw [plainRange_iff]; intros; omega

@[simp] theorem inRange_zero (c : Config) (a : Nat) : inRange c a 0 = true := rfl

/-- The digest has DL bytes (R236). -/
@[simp] theorem length_extract (alg : Alg) (h : Vector (BitVec alg.family.w) alg.family.n) :
    (extract alg h).length = alg.DL := by
  simp only [extract, List.length_take, List.length_flatMap, length_beStore, List.map_const', List.sum_replicate,
    Vector.length_toList, smul_eq_mul]
  cases alg <;> decide

/-- INIT. -/
theorem initCommand_eq (alg : Alg) (s : State) :
    initCommand alg s = .next ((s.putHashing alg (initStep alg)).setErr .ok) := rfl

/-- UPDATE and FINAL on a context that is not ACTIVE (60_exceptions.md R305). -/
theorem execUpdate_notActive {s : State} (h : s.eng.ctx.phase ≠ 1) : execUpdate s = .next (s.setErr .notActive) := by
  unfold execUpdate
  split
  · rfl
  · rfl
  · next h' => simp [h'] at h

theorem execFinal_notActive {s : State} (h : s.eng.ctx.phase ≠ 1) : execFinal s = .next (s.setErr .notActive) := by
  unfold execFinal
  split
  · rfl
  · rfl
  · next h' => simp [h'] at h

theorem execFinalDiscard_notActive {s : State} (h : s.eng.ctx.phase ≠ 1) :
    execFinalDiscard s = .next (s.setErr .notActive) := by
  unfold execFinalDiscard
  split
  · rfl
  · rfl
  · next h' => simp [h'] at h

/-- UPDATE on an ACTIVE context. -/
theorem execUpdate_active {s : State} {alg : Alg} {a : Active alg.family} (h : s.eng.ctx = .active alg a) :
    execUpdate s =
      if inRange s.cfg s.src s.len = false then .next (s.setErr .range)
      else if tooLong a s.len then .next (s.setErr .length)
      else if plainRange s.cfg s.src s.len = false then .refused .sideEffectMemory
      else .next ((s.putHashing alg (absorbAll ⟨a, s.eng.ccount⟩ s.srcBytes)).setErr .ok) := by
  unfold execUpdate
  rw [h]
  rfl

/-- FINAL on an ACTIVE context. -/
theorem execFinal_active {s : State} {alg : Alg} {a : Active alg.family} (h : s.eng.ctx = .active alg a) :
    execFinal s =
      if inRange s.cfg s.dst alg.DL = false then .next (s.wipe.setErr .range)
      else if plainRange s.cfg s.dst alg.DL = false then .refused .sideEffectMemory
      else .next (deliverDigest alg ⟨a, s.eng.ccount⟩ s) := by
  unfold execFinal
  rw [h]
  rfl

/-- FINAL.DISCARD on an ACTIVE context. -/
theorem execFinalDiscard_active {s : State} {alg : Alg} {a : Active alg.family} (h : s.eng.ctx = .active alg a) :
    execFinalDiscard s = .next (s.wipe.setErr .ok) := by
  unfold execFinalDiscard
  rw [h]

theorem exec_initOf (alg : Alg) (s : State) : exec (.initOf alg) s = initCommand alg s := by cases alg <;> rfl

theorem exec_oneshotOf (alg : Alg) (s : State) : exec (.oneshotOf alg) s = oneshotCommand alg s := by cases alg <;> rfl

theorem exec_update (s : State) : exec .update s = execUpdate s := rfl

theorem exec_final (s : State) : exec .final s = execFinal s := rfl

theorem exec_finalDiscard (s : State) : exec .finalDiscard s = execFinalDiscard s := rfl

theorem exec_tohex (s : State) : exec .tohex s = execTohex s := rfl

/-- UPDATE accepted. -/
theorem execUpdate_ok {s : State} {alg : Alg} {a : Active alg.family} (h : s.eng.ctx = .active alg a)
    (hr : inRange s.cfg s.src s.len = true) (hl : a.bc.toNat + 8 * s.len < 2 ^ alg.family.LW)
    (hp : plainRange s.cfg s.src s.len = true) :
    execUpdate s = .next ((s.putHashing alg (absorbAll ⟨a, s.eng.ccount⟩ s.srcBytes)).setErr .ok) := by
  rw [execUpdate_active h, if_neg (by simp [hr]), if_neg (by rw [tooLong_iff]; omega), if_neg (by simp [hp])]

/-- FINAL accepted. -/
theorem execFinal_ok {s : State} {alg : Alg} {a : Active alg.family} (h : s.eng.ctx = .active alg a)
    (hr : inRange s.cfg s.dst alg.DL = true) (hp : plainRange s.cfg s.dst alg.DL = true) :
    execFinal s = .next (deliverDigest alg ⟨a, s.eng.ccount⟩ s) := by
  rw [execFinal_active h, if_neg (by simp [hr]), if_neg (by simp [hp])]

/-- ONESHOT accepted. -/
theorem oneshotCommand_ok {s : State} {alg : Alg} (hs : inRange s.cfg s.src s.len = true)
    (hd : inRange s.cfg s.dst alg.DL = true) (hl : 8 * s.len < 2 ^ alg.family.LW)
    (hps : plainRange s.cfg s.src s.len = true) (hpd : plainRange s.cfg s.dst alg.DL = true) :
    oneshotCommand alg s = .next (deliverDigest alg (absorbAll (initStep alg) s.srcBytes) s) := by
  rw [oneshotCommand, if_neg (by simp [hs]), if_neg (by simp [hd]), if_neg (by omega), if_neg (by simp [hps]),
    if_neg (by simp [hpd])]

/-- What every command that goes on leaves: the context, CCOUNT, ERR and host memory may change, and nothing else. -/
def Changes (s t : State) : Prop :=
  t = { s with mem := t.mem, eng := { s.eng with ctx := t.eng.ctx, ccount := t.eng.ccount, err := t.eng.err } }

/-- What every command that goes on does to host memory: nothing if it is refused, and else it writes as many bytes
from DST on as its write range has. -/
def Stores (n : Nat) (s t : State) : Prop :=
  t.mem = s.mem ∨ t.eng.err = .ok ∧ ∃ bs : List Byte, bs.length = n ∧ t.mem = Memory.writeBytes s.mem s.dst bs

/-- The inversion of UPDATE. -/
theorem execUpdate_next {s t : State} (h : execUpdate s = .next t) :
    (s.eng.ctx.phase ≠ 1 ∧ t = s.setErr .notActive) ∨
      ∃ alg a, s.eng.ctx = .active alg a ∧
        ((inRange s.cfg s.src s.len = false ∧ t = s.setErr .range) ∨
          (inRange s.cfg s.src s.len = true ∧ tooLong a s.len = true ∧ t = s.setErr .length) ∨
          (inRange s.cfg s.src s.len = true ∧ tooLong a s.len = false ∧ plainRange s.cfg s.src s.len = true ∧
            t = (s.putHashing alg (absorbAll ⟨a, s.eng.ccount⟩ s.srcBytes)).setErr .ok)) := by
  by_cases hp : s.eng.ctx.phase = 1
  · obtain ⟨alg, a, ha⟩ := (phase_eq_one_iff _).1 hp
    rw [execUpdate_active ha] at h
    refine .inr ⟨alg, a, ha, ?_⟩
    split at h
    · next h1 => exact .inl ⟨h1, by cases h; rfl⟩
    · next h1 =>
      split at h
      · next h2 => exact .inr (.inl ⟨by simpa using h1, h2, by cases h; rfl⟩)
      · next h2 =>
        split at h
        · cases h
        · next h3 => exact .inr (.inr ⟨by simpa using h1, by simpa using h2, by simpa using h3, by cases h; rfl⟩)
  · rw [execUpdate_notActive hp] at h
    exact .inl ⟨hp, by cases h; rfl⟩

/-- The inversion of FINAL. -/
theorem execFinal_next {s t : State} (h : execFinal s = .next t) :
    (s.eng.ctx.phase ≠ 1 ∧ t = s.setErr .notActive) ∨
      ∃ alg a, s.eng.ctx = .active alg a ∧
        ((inRange s.cfg s.dst alg.DL = false ∧ t = s.wipe.setErr .range) ∨
          (inRange s.cfg s.dst alg.DL = true ∧ plainRange s.cfg s.dst alg.DL = true ∧
            t = deliverDigest alg ⟨a, s.eng.ccount⟩ s)) := by
  by_cases hp : s.eng.ctx.phase = 1
  · obtain ⟨alg, a, ha⟩ := (phase_eq_one_iff _).1 hp
    rw [execFinal_active ha] at h
    refine .inr ⟨alg, a, ha, ?_⟩
    split at h
    · next h1 => exact .inl ⟨h1, by cases h; rfl⟩
    · next h1 =>
      split at h
      · cases h
      · next h2 => exact .inr ⟨by simpa using h1, by simpa using h2, by cases h; rfl⟩
  · rw [execFinal_notActive hp] at h
    exact .inl ⟨hp, by cases h; rfl⟩

/-- The inversion of FINAL.DISCARD. -/
theorem execFinalDiscard_next {s t : State} (h : execFinalDiscard s = .next t) :
    (s.eng.ctx.phase ≠ 1 ∧ t = s.setErr .notActive) ∨ (s.eng.ctx.phase = 1 ∧ t = s.wipe.setErr .ok) := by
  by_cases hp : s.eng.ctx.phase = 1
  · obtain ⟨alg, a, ha⟩ := (phase_eq_one_iff _).1 hp
    rw [execFinalDiscard_active ha] at h
    exact .inr ⟨hp, by cases h; rfl⟩
  · rw [execFinalDiscard_notActive hp] at h
    exact .inl ⟨hp, by cases h; rfl⟩

/-- The inversion of ONESHOT. -/
theorem oneshotCommand_next {alg : Alg} {s t : State} (h : oneshotCommand alg s = .next t) :
    ((inRange s.cfg s.src s.len = false ∨ inRange s.cfg s.dst alg.DL = false) ∧ t = s.setErr .range) ∨
      (2 ^ alg.family.LW ≤ 8 * s.len ∧ t = s.setErr .length) ∨
      (inRange s.cfg s.src s.len = true ∧ inRange s.cfg s.dst alg.DL = true ∧ 8 * s.len < 2 ^ alg.family.LW ∧
        plainRange s.cfg s.src s.len = true ∧ plainRange s.cfg s.dst alg.DL = true ∧
        t = deliverDigest alg (absorbAll (initStep alg) s.srcBytes) s) := by
  unfold oneshotCommand at h
  split at h
  · next h1 => exact .inl ⟨.inl h1, by cases h; rfl⟩
  · next h1 =>
    split at h
    · next h2 => exact .inl ⟨.inr h2, by cases h; rfl⟩
    · next h2 =>
      split at h
      · next h3 => exact .inr (.inl ⟨h3, by cases h; rfl⟩)
      · next h3 =>
        split at h
        · cases h
        · next h4 =>
          split at h
          · cases h
          · next h5 =>
            exact .inr (.inr ⟨by simpa using h1, by simpa using h2, by omega, by simpa using h4, by simpa using h5,
              by cases h; rfl⟩)

/-- The state TOHEX leaves when it is accepted. -/
def afterTohex (s : State) : State := { s with mem := Memory.writeBytes s.mem s.dst (hexText s.srcBytes) }.setErr .ok

/-- TOHEX accepted. -/
theorem execTohex_ok {s : State} (hs : inRange s.cfg s.src s.len = true) (hd : inRange s.cfg s.dst (2 * s.len) = true)
    (ho : overlaps s.src s.len s.dst = false) (hps : plainRange s.cfg s.src s.len = true)
    (hpd : plainRange s.cfg s.dst (2 * s.len) = true) : execTohex s = .next (afterTohex s) := by
  rw [execTohex, if_neg (by simp [hs]), if_neg (by simp [hd]), if_neg (by simp [ho]), if_neg (by simp [hps]),
    if_neg (by simp [hpd])]
  rfl

/-- The inversion of TOHEX. -/
theorem execTohex_next {s t : State} (h : execTohex s = .next t) :
    ((inRange s.cfg s.src s.len = false ∨ inRange s.cfg s.dst (2 * s.len) = false) ∧ t = s.setErr .range) ∨
      (overlaps s.src s.len s.dst = true ∧ t = s.setErr .overlap) ∨
      (inRange s.cfg s.src s.len = true ∧ inRange s.cfg s.dst (2 * s.len) = true ∧
        overlaps s.src s.len s.dst = false ∧ plainRange s.cfg s.src s.len = true ∧
        plainRange s.cfg s.dst (2 * s.len) = true ∧ t = afterTohex s) := by
  unfold execTohex at h
  split at h
  · next h1 => exact .inl ⟨.inl h1, by cases h; rfl⟩
  · next h1 =>
    split at h
    · next h2 => exact .inl ⟨.inr h2, by cases h; rfl⟩
    · next h2 =>
      split at h
      · next h3 => exact .inr (.inl ⟨h3, by cases h; rfl⟩)
      · next h3 =>
        split at h
        · cases h
        · next h4 =>
          split at h
          · cases h
          · next h5 =>
            exact .inr (.inr ⟨by simpa using h1, by simpa using h2, by simpa using h3, by simpa using h4,
              by simpa using h5, by cases h; rfl⟩)

theorem changes_setErr (e : ErrCode) (s : State) : Changes s (s.setErr e) := rfl

theorem changes_wipe (e : ErrCode) (s : State) : Changes s (s.wipe.setErr e) := rfl

theorem changes_putHashing (alg : Alg) (x : Hashing alg.family) (e : ErrCode) (s : State) :
    Changes s ((s.putHashing alg x).setErr e) := rfl

theorem changes_deliverDigest (alg : Alg) (x : Hashing alg.family) (s : State) : Changes s (deliverDigest alg x s) := rfl

theorem changes_afterTohex (s : State) : Changes s (afterTohex s) := rfl

theorem stores_deliverDigest (alg : Alg) (x : Hashing alg.family) (s : State) : Stores alg.DL s (deliverDigest alg x s) :=
  .inr ⟨rfl, _, length_extract _ _, rfl⟩

theorem length_srcBytes (s : State) : s.srcBytes.length = s.len := length_readBytes _ _ _

theorem stores_afterTohex (s : State) : Stores (2 * s.len) s (afterTohex s) :=
  .inr ⟨rfl, _, by rw [length_hexText, length_srcBytes], rfl⟩

/-- ONESHOT changes and stores like every command. -/
theorem oneshotCommand_effect {alg : Alg} {s t : State} (h : oneshotCommand alg s = .next t) :
    Changes s t ∧ Stores alg.DL s t := by
  rcases oneshotCommand_next h with ⟨-, rfl⟩ | ⟨-, rfl⟩ | ⟨-, -, -, -, -, rfl⟩
  · exact ⟨changes_setErr _ _, .inl rfl⟩
  · exact ⟨changes_setErr _ _, .inl rfl⟩
  · exact ⟨changes_deliverDigest _ _ _, stores_deliverDigest _ _ _⟩

/-- Every write range begins at DST. -/
@[simp] theorem storeRange_fst (i : Instr) (s : State) : (storeRange i s).1 = s.dst := by
  cases i <;> simp only [storeRange]
  cases s.eng.ctx <;> rfl

/-- The write range of FINAL on an ACTIVE context. -/
theorem storeRange_final {s : State} {alg : Alg} {a : Active alg.family} (h : s.eng.ctx = .active alg a) :
    (storeRange .final s).2 = alg.DL := by
  simp only [storeRange]
  rw [h]

/-- The inversion of `exec`: what any command that goes on has changed and stored. -/
theorem exec_effect {i : Instr} {s t : State} (h : exec i s = .next t) : Changes s t ∧ Stores (storeRange i s).2 s t := by
  cases i with
  | initSha1 | initSha224 | initSha256 | initSha384 | initSha512 =>
    cases h; exact ⟨changes_putHashing _ _ _ _, .inl rfl⟩
  | update =>
    rcases execUpdate_next h with ⟨-, rfl⟩ | ⟨alg, a, -, ⟨-, rfl⟩ | ⟨-, -, rfl⟩ | ⟨-, -, -, rfl⟩⟩
    · exact ⟨changes_setErr _ _, .inl rfl⟩
    · exact ⟨changes_setErr _ _, .inl rfl⟩
    · exact ⟨changes_setErr _ _, .inl rfl⟩
    · exact ⟨changes_putHashing _ _ _ _, .inl rfl⟩
  | final =>
    rcases execFinal_next h with ⟨-, rfl⟩ | ⟨alg, a, ha, ⟨-, rfl⟩ | ⟨-, -, rfl⟩⟩
    · exact ⟨changes_setErr _ _, .inl rfl⟩
    · exact ⟨changes_wipe _ _, .inl rfl⟩
    · exact ⟨changes_deliverDigest _ _ _, storeRange_final ha ▸ stores_deliverDigest _ _ _⟩
  | finalDiscard =>
    rcases execFinalDiscard_next h with ⟨-, rfl⟩ | ⟨-, rfl⟩
    · exact ⟨changes_setErr _ _, .inl rfl⟩
    · exact ⟨changes_wipe _ _, .inl rfl⟩
  | oneshotSha1 | oneshotSha224 | oneshotSha256 | oneshotSha384 | oneshotSha512 => exact oneshotCommand_effect h
  | tohex =>
    rcases execTohex_next h with ⟨-, rfl⟩ | ⟨-, rfl⟩ | ⟨-, -, -, -, -, rfl⟩
    · exact ⟨changes_setErr _ _, .inl rfl⟩
    · exact ⟨changes_setErr _ _, .inl rfl⟩
    · exact ⟨changes_afterTohex _, stores_afterTohex _⟩

/-- The write range of a command that reports OK lies in the address space (20_memory.md R63). -/
theorem exec_inRange {i : Instr} {s t : State} (h : exec i s = .next t) (hok : t.eng.err = .ok) :
    inRange s.cfg s.dst (storeRange i s).2 = true := by
  have one : ∀ alg, oneshotCommand alg s = .next t → inRange s.cfg s.dst alg.DL = true := by
    intro alg h
    rcases oneshotCommand_next h with ⟨-, rfl⟩ | ⟨-, rfl⟩ | ⟨-, hr, -, -, -, rfl⟩
    · cases hok
    · cases hok
    · exact hr
  cases i with
  | initSha1 | initSha224 | initSha256 | initSha384 | initSha512 | update | finalDiscard => rfl
  | final =>
    rcases execFinal_next h with ⟨-, rfl⟩ | ⟨alg, a, ha, ⟨-, rfl⟩ | ⟨hr, -, rfl⟩⟩
    · cases hok
    · cases hok
    · rw [storeRange_final ha]; exact hr
  | oneshotSha1 | oneshotSha224 | oneshotSha256 | oneshotSha384 | oneshotSha512 => exact one _ h
  | tohex =>
    rcases execTohex_next h with ⟨-, rfl⟩ | ⟨-, rfl⟩ | ⟨-, hr, -, -, -, rfl⟩
    · cases hok
    · cases hok
    · exact hr

/-- What a command that goes on does to the context: it is unchanged, or loaded by INIT, or absorbed into by UPDATE, or
wiped. -/
theorem exec_ctx {i : Instr} {s t : State} (h : exec i s = .next t) :
    t.eng.ctx = s.eng.ctx ∨ (∃ alg, i = .initOf alg ∧ t.eng.ctx = .active alg (initStep alg).act) ∨
      (∃ alg a, i = .update ∧ s.eng.ctx = .active alg a ∧ a.bc.toNat + 8 * s.len < 2 ^ alg.family.LW ∧
        t.eng.ctx = .active alg (absorbAll ⟨a, s.eng.ccount⟩ s.srcBytes).act) ∨
      t.eng.ctx = .finalized ∧ (i = .final ∨ i = .finalDiscard ∨ ∃ alg, i = .oneshotOf alg) := by
  have one : ∀ alg, oneshotCommand alg s = .next t → t.eng.ctx = s.eng.ctx ∨ t.eng.ctx = .finalized := by
    intro alg h
    rcases oneshotCommand_next h with ⟨-, rfl⟩ | ⟨-, rfl⟩ | ⟨-, -, -, -, -, rfl⟩
    · exact .inl rfl
    · exact .inl rfl
    · exact .inr rfl
  have onef : ∀ alg, exec (.oneshotOf alg) s = .next t → t.eng.ctx = s.eng.ctx ∨ t.eng.ctx = .finalized :=
    fun alg h => one alg ((exec_oneshotOf alg s).symm.trans h)
  cases i with
  | initSha1 => cases h; exact .inr (.inl ⟨.sha1, rfl, rfl⟩)
  | initSha224 => cases h; exact .inr (.inl ⟨.sha224, rfl, rfl⟩)
  | initSha256 => cases h; exact .inr (.inl ⟨.sha256, rfl, rfl⟩)
  | initSha384 => cases h; exact .inr (.inl ⟨.sha384, rfl, rfl⟩)
  | initSha512 => cases h; exact .inr (.inl ⟨.sha512, rfl, rfl⟩)
  | update =>
    rcases execUpdate_next h with ⟨-, rfl⟩ | ⟨alg, a, ha, ⟨-, rfl⟩ | ⟨-, -, rfl⟩ | ⟨-, htl, -, rfl⟩⟩
    · exact .inl rfl
    · exact .inl rfl
    · exact .inl rfl
    · rw [← Bool.not_eq_true, tooLong_iff, Nat.not_le] at htl
      exact .inr (.inr (.inl ⟨alg, a, rfl, ha, htl, rfl⟩))
  | final =>
    rcases execFinal_next h with ⟨-, rfl⟩ | ⟨alg, a, ha, ⟨-, rfl⟩ | ⟨-, -, rfl⟩⟩
    · exact .inl rfl
    · exact .inr (.inr (.inr ⟨rfl, .inl rfl⟩))
    · exact .inr (.inr (.inr ⟨rfl, .inl rfl⟩))
  | finalDiscard =>
    rcases execFinalDiscard_next h with ⟨-, rfl⟩ | ⟨-, rfl⟩
    · exact .inl rfl
    · exact .inr (.inr (.inr ⟨rfl, .inr (.inl rfl)⟩))
  | oneshotSha1 => exact (onef .sha1 h).imp id fun h => .inr (.inr ⟨h, .inr (.inr ⟨.sha1, rfl⟩)⟩)
  | oneshotSha224 => exact (onef .sha224 h).imp id fun h => .inr (.inr ⟨h, .inr (.inr ⟨.sha224, rfl⟩)⟩)
  | oneshotSha256 => exact (onef .sha256 h).imp id fun h => .inr (.inr ⟨h, .inr (.inr ⟨.sha256, rfl⟩)⟩)
  | oneshotSha384 => exact (onef .sha384 h).imp id fun h => .inr (.inr ⟨h, .inr (.inr ⟨.sha384, rfl⟩)⟩)
  | oneshotSha512 => exact (onef .sha512 h).imp id fun h => .inr (.inr ⟨h, .inr (.inr ⟨.sha512, rfl⟩)⟩)
  | tohex =>
    rcases execTohex_next h with ⟨-, rfl⟩ | ⟨-, rfl⟩ | ⟨-, -, -, -, -, rfl⟩
    · exact .inl rfl
    · exact .inl rfl
    · exact .inl rfl

/-- A command keeps host memory canonical and inside the address space. -/
theorem exec_memory {i : Instr} {s t : State} (hw : Memory.wf s.mem = true) (hb : ∀ c ∈ s.mem, c.1 < 2 ^ s.cfg.addrW)
    (h : exec i s = .next t) : Memory.wf t.mem = true ∧ ∀ c ∈ t.mem, c.1 < 2 ^ s.cfg.addrW := by
  rcases (exec_effect h).2 with e | ⟨hok, bs, hl, e⟩
  · rw [e]; exact ⟨hw, hb⟩
  · have hr := (inRange_iff _ _ _).1 (exec_inRange h hok)
    rw [e]
    refine ⟨wf_writeBytes bs hw _, fun c hc => ?_⟩
    rcases mem_writeBytes bs hc with h | h
    · exact hb c h
    · omega

end Sys2Proof.Machine
end

