-- ==== Sys2Proof/Laws/Finalization.lean ====
section
/-! SUPPORT. Bytes laid end to end, padding: its length, and what padding and compressing the context of a message leaves. -/

namespace Sys2Proof.Machine

@[simp] theorem length_zeros (n : Nat) : (zeros n).length = n := by simp [zeros]

theorem zeros_add (m n : Nat) : zeros (m + n) = zeros m ++ zeros n := by
  simp only [zeros, List.replicate_append_replicate]

/-- A byte of pieces of one length laid end to end. -/
theorem getElem?_flatMap_uniform {α β : Type} {k : Nat} (hk : 0 < k) {f : α → List β} (hf : ∀ a, (f a).length = k) :
    ∀ (l : List α) {j : Nat} {a : α}, l[j / k]? = some a → (l.flatMap f)[j]? = (f a)[j % k]?
  | [], _, _, h => by simp at h
  | b :: l, j, a, h => by
    rw [List.flatMap_cons]
    by_cases hj : j < k
    · rw [Nat.div_eq_of_lt hj] at h
      cases h
      rw [List.getElem?_append_left (by rw [hf]; exact hj), Nat.mod_eq_of_lt hj]
    · have hjk : k ≤ j := Nat.le_of_not_lt hj
      rw [Nat.div_eq_sub_div hk hjk, List.getElem?_cons_succ] at h
      rw [List.getElem?_append_right (by rw [hf]; exact hjk), hf, getElem?_flatMap_uniform hk hf l h,
        ← Nat.mod_eq_sub_mod hjk]

/-- The zero bytes of the padding make whole blocks, and are fewer than a block. -/
theorem padZeros_spec (f : Family) (N : Nat) : (N + 1 + padZeros f N + f.L) % f.B = 0 ∧ padZeros f N < f.B := by
  refine ⟨?_, Nat.mod_lt _ (B_pos f)⟩
  unfold padZeros
  cases f <;> simp only [Family.B, Family.L] <;> omega

theorem length_pad (f : Family) (M : List Byte) :
    (pad f M).length = M.length + 1 + padZeros f M.length + f.L := by
  simp [pad]; omega

/-- The zero bytes of the padding, by whether the length field fits the pending block. -/
theorem padZeros_eq (f : Family) (N : Nat) :
    padZeros f N = if N % f.B + 1 ≤ f.B - f.L then f.B - f.L - N % f.B - 1 else f.B - N % f.B - 1 + (f.B - f.L) := by
  unfold padZeros
  split
  · next h => cases f <;> simp only [Family.B, Family.L] at h ⊢ <;> omega
  · next h => cases f <;> simp only [Family.B, Family.L] at h ⊢ <;> omega

/-- Padding and compressing the context of a message M folds the blocks of pad(M), in one or two compressions
(R231 to R235, R243). -/
theorem padAndCompress_represents {alg : Alg} {M : List Byte} {x : Hashing alg.family} (h : Represents alg M x.act) :
    (padAndCompress x).act.h = foldBlocks alg.family (iv alg) (blocksOf alg.family (pad alg.family M)) ∧
      (padAndCompress x).ccount =
        x.ccount + if M.length % alg.family.B ≤ alg.family.B - alg.family.L - 1 then 1 else 2 := by
  have hB := B_pos alg.family
  have hL := L_lt_B alg.family
  obtain ⟨P, T, hM, hP, hT, hTl, hblk⟩ := split_blocks alg.family M
  have hPm : P.length % alg.family.B = 0 := by rw [hP]; exact Nat.mul_mod_left _ _
  have hbuf : x.act.buf = T := by rw [h.buf, hT]
  have hTlt : T.length < alg.family.B := by rw [hTl]; exact Nat.mod_lt _ hB
  have hpad : pad alg.family M =
      P ++ (T ++ [0x80] ++ zeros (padZeros alg.family M.length) ++ beStore alg.family.L (8 * M.length)) := by
    rw [pad]
    conv_lhs => rw [hM]
    simp [hM]
  have hh : x.act.h = List.foldl (compress alg.family) (iv alg) (blocksOf alg.family M) := h.h
  rw [hpad, blocksOf_append hPm, ← hblk, padZeros_eq, ← hTl]
  unfold padAndCompress
  rw [h.used, ← hTl, hbuf]
  simp only [foldBlocks, List.foldl_append, lengthField, h.bc]
  rw [← hh]
  split
  · rw [if_pos (by omega), blocksOf_block (by simp; omega)]
    exact ⟨rfl, rfl⟩
  · rw [if_neg (by omega)]
    have e : T ++ [0x80] ++ zeros (alg.family.B - T.length - 1 + (alg.family.B - alg.family.L)) ++
        beStore alg.family.L (8 * M.length) =
        (T ++ [0x80] ++ zeros (alg.family.B - T.length - 1)) ++
          (zeros (alg.family.B - alg.family.L) ++ beStore alg.family.L (8 * M.length)) := by
      simp only [zeros_add, List.append_assoc]
    have l : (T ++ [(0x80 : Byte)] ++ zeros (alg.family.B - T.length - 1)).length = alg.family.B := by simp; omega
    rw [e, blocksOf_append (by rw [l]; exact Nat.mod_self _), blocksOf_block l, blocksOf_block (by simp; omega)]
    exact ⟨by simp only [compressBlock, h.bc]; rfl, by simp only [compressBlock, BitVec.add_assoc]; rfl⟩

end Sys2Proof.Machine
end

