-- ==== Sys2Proof/Laws/HostPort.lean ====
section
/-! SUPPORT. Selecting an engine instance, and the host actions on the addressed instance. -/

namespace Sys2Proof.Machine

@[simp] theorem select_cur (s : State) : s.select s.cur = some s := by simp [State.select]

/-- The addressed instance is number `cur`. -/
theorem engines_cur {s : State} (h : s.cur ≤ s.parked.length) : s.engines[s.cur]? = some s.eng := by
  have : (s.parked.take s.cur).length = s.cur := by rw [List.length_take]; omega
  rw [State.engines, List.getElem?_append_right (by omega), this, Nat.sub_self]
  rfl

theorem length_engines (s : State) : s.engines.length = s.parked.length + 1 := by
  simp only [State.engines, List.length_append, List.length_cons, List.length_take, List.length_drop]
  omega

/-- Taking a member out of a list and putting it back. -/
theorem eraseIdx_insert {α : Type} : ∀ (l : List α) (k : Nat) (h : k < l.length),
    (l.eraseIdx k).take k ++ l[k] :: (l.eraseIdx k).drop k = l
  | _ :: _, 0, _ => rfl
  | a :: l, k + 1, h => by simpa using eraseIdx_insert l k (by simpa using h)

/-- What selection does: the same instances, another one addressed, and nothing else changed. -/
theorem select_some {k : Nat} {s t : State} (hs : s.cur ≤ s.parked.length) (h : s.select k = some t) :
    t.cur = k ∧ t.cur ≤ t.parked.length ∧ t.engines = s.engines ∧
      t = { s with cur := t.cur, eng := t.eng, parked := t.parked } := by
  unfold State.select at h
  split at h
  · next hk => cases h; exact ⟨hk.symm, hs, rfl, rfl⟩
  · split at h
    · cases h
    · next e he =>
      cases h
      obtain ⟨hk, rfl⟩ := List.getElem?_eq_some_iff.1 he
      have hlen := length_engines s
      have hle : k ≤ (s.engines.eraseIdx k).length := by rw [List.length_eraseIdx_of_lt hk]; omega
      exact ⟨rfl, hle, eraseIdx_insert s.engines k hk, rfl⟩

/-- An instance the platform holds can be selected. -/
theorem select_isSome {k : Nat} {s : State} (h : k < s.parked.length + 1) : ∃ t, s.select k = some t := by
  unfold State.select
  split
  · exact ⟨s, rfl⟩
  · rw [← length_engines] at h
    rw [List.getElem?_eq_getElem h]
    exact ⟨_, rfl⟩

/-- An action on the addressed instance. -/
@[simp] theorem onInstance_cur (act : State → Host.Outcome State Fault Refusal) (s : State) :
    onInstance s.cur act s = act s := by simp [onInstance]

/-- Changing the addressed instance changes no other. -/
theorem engines_update (s : State) (e : Engine) (j : Nat) (hj : j ≠ s.cur) (hs : s.cur ≤ s.parked.length) :
    ({ s with eng := e } : State).engines[j]? = s.engines[j]? := by
  have hl : (s.parked.take s.cur).length = s.cur := by rw [List.length_take]; omega
  simp only [State.engines]
  rcases Nat.lt_or_gt_of_ne hj with h | h
  · rw [List.getElem?_append_left (by omega), List.getElem?_append_left (by omega)]
  · rw [List.getElem?_append_right (by omega), List.getElem?_append_right (by omega), hl]
    obtain ⟨d, hd⟩ : ∃ d, j - s.cur = d + 1 := ⟨j - s.cur - 1, by omega⟩
    rw [hd]
    rfl

/-- The addressed instance or a parked one. -/
theorem mem_engines (s : State) (e : Engine) : e ∈ s.engines ↔ e = s.eng ∨ e ∈ s.parked := by
  conv_rhs => rw [← List.take_append_drop s.cur s.parked]
  simp only [State.engines, List.mem_append, List.mem_cons]
  tauto

/-- `withFetchWord` puts the write of a command word to CMD of the addressed instance at the head of the queue. -/
theorem withFetchWord_eq {s : State} {w : Nat} (h : w < 2 ^ 32) :
    s.withFetchWord 32 w = { s with queue := .regWrite s.cur 0x00 4 (BitVec.ofNat 64 w) :: s.queue } := by
  simp only [State.withFetchWord, Nat.mod_eq_of_lt h, if_pos h]

end Sys2Proof.Machine
end

