-- ==== Sys2Proof/Laws/Step.lean ====
section
/-! SUPPORT. The inversion of a host action: which part of the machine it can change. -/

namespace Sys2Proof.Machine

/-- Nothing beside the addressed engine, host memory, the read value, the checks and the free counter has changed. -/
structure Local (s t : State) : Prop where
  cur : t.cur = s.cur
  parked : t.parked = s.parked
  cfg : t.cfg = s.cfg
  queue : t.queue = s.queue

theorem Local.refl (s : State) : Local s s := ⟨rfl, rfl, rfl, rfl⟩

theorem Local.trans {s t u : State} (h : Local s t) (h' : Local t u) : Local s u :=
  ⟨h'.cur.trans h.cur, h'.parked.trans h.parked, h'.cfg.trans h.cfg, h'.queue.trans h.queue⟩

theorem Changes.toLocal {s t : State} (h : Changes s t) : Local s t := by
  unfold Changes at h; rw [h]; exact ⟨rfl, rfl, rfl, rfl⟩

theorem local_scramble (as : List Nat) (s : State) : Local s (s.scramble as) :=
  ⟨scramble_cur as s, scramble_parked as s, scramble_cfg as s, scramble_queue as s⟩

/-- A command word: an error, or its command. -/
theorem commandWrite_next {v : W32} {s t : State} (h : commandWrite v s = .next t) :
    (∃ e, decode s.cfg.hasDiscard v = .error e ∧ t = s.setErr e) ∨
      ∃ i, decode s.cfg.hasDiscard v = .ok i ∧ exec i s = .next t := by
  unfold commandWrite at h
  split at h
  · next e he => cases h; exact .inl ⟨e, he, rfl⟩
  · next i hi => exact .inr ⟨i, hi, h⟩

theorem commandWrite_changes {v : W32} {s t : State} (h : commandWrite v s = .next t) : Changes s t := by
  rcases commandWrite_next h with ⟨e, -, rfl⟩ | ⟨i, -, h⟩
  · exact changes_setErr e s
  · exact (exec_effect h).1

theorem writeRegister_local {r : Register} {v : W64} {s t : State} (h : writeRegister r v s = .next t) : Local s t := by
  cases r with
  | cmd => exact (commandWrite_changes h).toLocal
  | arg0 | arg1 | arg2 | status | ccount | reserved => cases h; exact ⟨rfl, rfl, rfl, rfl⟩

/-- A reset during a command: the instance is reset, and bytes of the command's write range, if any, are scrambled. -/
theorem resetDuringCommand_next {v : W32} {s t : State} (h : resetDuringCommand v s = .next t) :
    t = resetEngine s ∨ ∃ i u, decode s.cfg.hasDiscard v = .ok i ∧ exec i s = .next u ∧ u.eng.err = .ok ∧
      t = resetEngine (s.scramble ((List.range (storeRange i s).2).map fun j => (storeRange i s).1 + j)) := by
  unfold resetDuringCommand at h
  split at h
  · cases h; exact .inl rfl
  · next i hi =>
    split at h
    · next u hu =>
      split at h
      · next hok => cases h; exact .inr ⟨i, u, hi, hu, hok, rfl⟩
      · cases h; exact .inl rfl
    · cases h
    · cases h

theorem resetDuringCommand_local {v : W32} {s t : State} (h : resetDuringCommand v s = .next t) :
    Local s t ∧ t.eng = Engine.reset := by
  rcases resetDuringCommand_next h with rfl | ⟨i, u, -, -, -, rfl⟩
  · exact ⟨⟨rfl, rfl, rfl, rfl⟩, rfl⟩
  · exact ⟨(local_scramble _ s).trans ⟨rfl, rfl, rfl, rfl⟩, rfl⟩

/-- A raced command: the racing bytes are scrambled, the command runs, they are scrambled again. -/
theorem racedCommand_next {v : W32} {as : List Nat} {s t : State} (h : racedCommand v as s = .next t) :
    (∀ a ∈ as, a < 2 ^ s.cfg.addrW) ∧ (∀ a ∈ as, plainRange s.cfg a 1 = true) ∧
      ∃ u, commandWrite v (s.scramble as) = .next u ∧ t = u.scramble as := by
  unfold racedCommand at h
  split at h
  · next ha =>
    split at h
    · next hp =>
      refine ⟨by simpa using ha, by simpa using hp, ?_⟩
      split at h
      · next u hu => cases h; exact ⟨u, hu, rfl⟩
      · cases h
      · cases h
    · cases h
  · cases h

theorem racedCommand_local {v : W32} {as : List Nat} {s t : State} (h : racedCommand v as s = .next t) : Local s t := by
  obtain ⟨-, -, u, hu, rfl⟩ := racedCommand_next h
  exact (local_scramble as s).trans ((commandWrite_changes hu).toLocal.trans (local_scramble as u))

theorem onInstance_next {k : Nat} {act : State → Host.Outcome State Fault Refusal} {s t : State}
    (h : onInstance k act s = .next t) : ∃ u, s.select k = some u ∧ act u = .next t := by
  unfold onInstance at h
  split at h
  · cases h
  · next u hu => exact ⟨u, hu, h⟩

theorem onRegister_next {off : BitVec 6} {w : Nat} {act : Register → State → Host.Outcome State Fault Refusal}
    {s t : State} (h : onRegister off w act s = .next t) : ∃ r, registerAt off w = some r ∧ act r s = .next t := by
  unfold onRegister at h
  split at h
  · cases h
  · next r hr => exact ⟨r, hr, h⟩

theorem onHostByte_next {a : Nat} {act : State → State} {s t : State} (h : onHostByte a act s = .next t) :
    inRegisterBlock s.cfg a = false ∧ a < 2 ^ s.cfg.addrW ∧ plainRange s.cfg a 1 = true ∧ t = act s := by
  unfold onHostByte at h
  split at h
  · cases h
  · next hr =>
    split at h
    · next ha =>
      split at h
      · next hp => cases h; exact ⟨by simpa using hr, ha, hp, rfl⟩
      · cases h
    · cases h

/-- A host byte access that is allowed. -/
theorem onHostByte_plain {a : Nat} {act : State → State} {s : State} (hr : inRegisterBlock s.cfg a = false)
    (ha : a < 2 ^ s.cfg.addrW) (hp : plainRange s.cfg a 1 = true) : onHostByte a act s = .next (act s) := by
  simp [onHostByte, hr, ha, hp]

/-- The inversion of `perform`: an access to host memory leaves every engine alone; any other action first selects its
instance and then changes nothing but that instance, host memory, the read value, the
checks and the free counter. -/
theorem perform_next {act : HostAction} {s t : State} (h : perform act s = .next t) :
    (instanceOf act = none ∧ Local s t ∧ t.eng = s.eng) ∨
      ∃ k u, instanceOf act = some k ∧ s.select k = some u ∧ Local u t := by
  cases act with
  | regWrite k off w v =>
    obtain ⟨u, hu, h⟩ := onInstance_next h
    obtain ⟨r, -, h⟩ := onRegister_next h
    exact .inr ⟨k, u, rfl, hu, writeRegister_local h⟩
  | regRead k off w =>
    obtain ⟨u, hu, h⟩ := onInstance_next h
    obtain ⟨r, -, h⟩ := onRegister_next h
    cases h
    exact .inr ⟨k, u, rfl, hu, ⟨rfl, rfl, rfl, rfl⟩⟩
  | check k off w f v =>
    obtain ⟨u, hu, h⟩ := onInstance_next h
    obtain ⟨r, -, h⟩ := onRegister_next h
    cases h
    exact .inr ⟨k, u, rfl, hu, ⟨rfl, rfl, rfl, rfl⟩⟩
  | memWrite a b => simp only [perform] at h; obtain ⟨-, -, -, rfl⟩ := onHostByte_next h; exact .inl ⟨rfl, ⟨rfl, rfl, rfl, rfl⟩, rfl⟩
  | memRead a => simp only [perform] at h; obtain ⟨-, -, -, rfl⟩ := onHostByte_next h; exact .inl ⟨rfl, ⟨rfl, rfl, rfl, rfl⟩, rfl⟩
  | reset k =>
    obtain ⟨u, hu, h⟩ := onInstance_next h
    cases h
    exact .inr ⟨k, u, rfl, hu, ⟨rfl, rfl, rfl, rfl⟩⟩
  | resetDuring k v =>
    obtain ⟨u, hu, h⟩ := onInstance_next h
    exact .inr ⟨k, u, rfl, hu, (resetDuringCommand_local h).1⟩
  | race k v as =>
    obtain ⟨u, hu, h⟩ := onInstance_next h
    exact .inr ⟨k, u, rfl, hu, racedCommand_local h⟩

/-- The inversion of a step. -/
theorem step_next {s t : State} (h : step s = .next t) :
    (s.queue = [] ∧ t = s) ∨ ∃ act rest, s.queue = act :: rest ∧ perform act { s with queue := rest } = .next t := by
  unfold step at h
  split at h
  · next hq => cases h; exact .inl ⟨hq, rfl⟩
  · next act rest hq => exact .inr ⟨act, rest, hq, h⟩

end Sys2Proof.Machine
end

