-- ==== Sys2Proof/Laws/HostProgram.lean ====
section
/-! SUPPORT. Host programs: the memory they start with, and how a queue of register writes runs. -/

namespace Sys2Proof.Machine

/-- Placing memory lines keeps the canonical form. -/
theorem wf_placeMemory (ls : List MemoryLine) : ∀ {m : Memory}, Memory.wf m = true → Memory.wf (placeMemory m ls) = true := by
  induction ls with
  | nil => exact id
  | cons l ls ih => exact fun h => ih (wf_writeBytes l.bytes h l.start)

/-- The last line is placed over the others. -/
@[simp] theorem placeMemory_append (m : Memory) (ls : List MemoryLine) (l : MemoryLine) :
    placeMemory m (ls ++ [l]) = Memory.writeBytes (placeMemory m ls) l.start l.bytes := by
  simp [placeMemory]

/-- A byte in no line's range is as before. -/
theorem read_placeMemory_outside (ls : List MemoryLine) : ∀ (m : Memory) {x : Nat},
    (∀ l ∈ ls, x < l.start ∨ l.start + l.bytes.length ≤ x) → Memory.read (placeMemory m ls) x = Memory.read m x := by
  induction ls with
  | nil => exact fun _ _ _ => rfl
  | cons l ls ih =>
    intro m x h
    exact (ih _ fun l' hl' => h l' (List.mem_cons_of_mem l hl')).trans
      (read_writeBytes_outside l.bytes m l.start x (h l (List.mem_cons_self ..)))

/-- Everything that starting a program can do. -/
theorem withProgram_some {s t : State} {k : Nat} {p : HostProgram} (h : s.withProgram k p = some t) :
    p.wf s.cfg = true ∧
      t = { s with mem := placeMemory s.mem p.memory, queue := p.lines.flatMap (HostLine.actions k) } := by
  unfold State.withProgram at h
  split at h
  · next hp => cases h; exact ⟨hp, rfl⟩
  · cases h

/-- A program that is one of this machine starts. -/
theorem withProgram_wf {s : State} {p : HostProgram} (h : p.wf s.cfg = true) (k : Nat) :
    s.withProgram k p =
      some { s with mem := placeMemory s.mem p.memory, queue := p.lines.flatMap (HostLine.actions k) } := if_pos h

/-- Selection does not look at the queue. -/
theorem select_queue (s : State) (k : Nat) (q : List HostAction) :
    State.select k { s with queue := q } = (State.select k s).map fun u => { u with queue := q } := by
  unfold State.select
  by_cases hk : k = s.cur
  · rw [if_pos hk, if_pos hk]; rfl
  · rw [if_neg hk, if_neg hk]
    show (match s.engines[k]? with | none => none | some e => some _) = _
    cases s.engines[k]? <;> rfl

/-- A register write to the addressed instance, as one step. -/
theorem step_regWrite (s : State) {q rest : List HostAction} {r : Register} {off : BitVec 6} {w : Nat} {v : W64}
    (hr : registerAt off w = some r) (hq : q = .regWrite s.cur off w v :: rest) :
    step { s with queue := q } = writeRegister r v { s with queue := rest } := by
  subst hq
  refine (onInstance_cur (onRegister off w fun r t => writeRegister r v t) { s with queue := rest }).trans ?_
  unfold onRegister; rw [hr]

/-- A run goes on from the next state. -/
theorem run_succ {n : Nat} {s t : State} (h : step s = .next t) :
    Host.Core.run core (n + 1) s = Host.Core.run core n t := by
  simp only [Host.Core.run]
  rw [show core.step s = .next t from h]

end Sys2Proof.Machine
end

