-- ==== Sys2Proof/Laws/PerInstr.lean ====
section
/-! SUPPORT. The family of statements proved command by command (LAWS.json): `EncodedFields`. -/

namespace Sys2Proof.Laws.EncodedFields

/-- The word of a command has its reserved bits 0 and one of the five OP values, a DISCARD bit only for FINAL, and an ALG
field that selects an algorithm exactly when OP is INIT or ONESHOT (30_encoding.md R80 to R85). -/
abbrev Statement (i : Instr) : Prop :=
  reservedField (encode i) = 0 ∧ 1 ≤ (opField (encode i)).toNat ∧ (opField (encode i)).toNat ≤ 5 ∧
    (discardField (encode i) = 1 → opField (encode i) = opFinal) ∧
    ((opField (encode i) = opInit ∨ opField (encode i) = opOneshot) ↔ (Alg.ofCode (algField (encode i))).isSome = true) ∧
    ((Alg.ofCode (algField (encode i))).isSome = false → algField (encode i) = 0)

theorem initSha1 : Statement .initSha1 := by decide
theorem initSha224 : Statement .initSha224 := by decide
theorem initSha256 : Statement .initSha256 := by decide
theorem initSha384 : Statement .initSha384 := by decide
theorem initSha512 : Statement .initSha512 := by decide
theorem update : Statement .update := by decide
theorem final : Statement .final := by decide
theorem finalDiscard : Statement .finalDiscard := by decide
theorem oneshotSha1 : Statement .oneshotSha1 := by decide
theorem oneshotSha224 : Statement .oneshotSha224 := by decide
theorem oneshotSha256 : Statement .oneshotSha256 := by decide
theorem oneshotSha384 : Statement .oneshotSha384 := by decide
theorem oneshotSha512 : Statement .oneshotSha512 := by decide
theorem tohex : Statement .tohex := by decide

end Sys2Proof.Laws.EncodedFields
end

