-- ==== Sys2Proof/Laws/Schedule.lean ====
section
/-! SUPPORT. The slots of the schedule buffer, the words of the eager table, and the rounds of a compression. -/

namespace Sys2Proof.Machine

/-- A slot is named modulo 16. -/
theorem slot_eq {w : Nat} (W : W16 w) {i j : Nat} (h : i % 16 = j % 16) : W.slot i = W.slot j := by
  simp [W16.slot, h]

/-- A slot just overwritten holds the new word. -/
theorem slot_put_same {w : Nat} (W : W16 w) {i j : Nat} (h : i % 16 = j % 16) (x : BitVec w) :
    (W.put i x).slot j = x := by
  simp [W16.slot, W16.put, h]

/-- Overwriting a slot leaves the others alone. -/
theorem slot_put_ne {w : Nat} (W : W16 w) {i j : Nat} (h : i % 16 ≠ j % 16) (x : BitVec w) :
    (W.put i x).slot j = W.slot j := by
  simp only [W16.slot, W16.put]
  exact Vector.getElem_set_ne _ _ h

/-- Rounds 0 to 15 leave the buffer as the block loaded it (R156). -/
theorem circularAfter_lt (f : Family) (M : W16 f.w) : ∀ t, t < 16 → circularAfter f M t = M := by
  have hs : ∀ t, t < 16 → schedStep f M t = M := by
    intro t h; cases f <;> simp [schedStep, schedStep1, schedStep2, h]
  intro t
  induction t with
  | zero => intro h; exact hs 0 h
  | succ t ih => intro h; rw [circularAfter, ih (by omega), hs _ h]

@[simp] theorem length_eagerTable (f : Family) (M : W16 f.w) (k : Nat) : (eagerTable f M k).length = 16 + k := by
  induction k with
  | zero => simp [eagerTable]
  | succ k ih => simp [eagerTable, ih]; omega

/-- A longer table begins with the shorter one. -/
theorem eagerTable_old (f : Family) (M : W16 f.w) (k j t : Nat) (h : t < 16 + k) :
    tableWord (eagerTable f M (k + j)) t = tableWord (eagerTable f M k) t := by
  induction j with
  | zero => rfl
  | succ j ih =>
    rw [← ih, ← Nat.add_assoc, eagerTable]
    simp only [tableWord, List.getD_eq_getElem?_getD]
    rw [List.getElem?_append_left (by rw [length_eagerTable]; omega)]

/-- The word a table grows by is the recurrence's. -/
theorem eagerTable_new (f : Family) (M : W16 f.w) (k : Nat) :
    tableWord (eagerTable f M (k + 1)) (16 + k) = eagerNext f (eagerTable f M k) := by
  simp only [eagerTable, tableWord, List.getD_eq_getElem?_getD]
  rw [List.getElem?_append_right (by rw [length_eagerTable]), length_eagerTable]
  simp

/-- What R + 1 rounds leave: the buffer after round R, and the registers folded over the words `SCHED` yields. -/
theorem runRounds_succ {ω : Type} (f : Family) (round : ω → Nat → BitVec f.w → ω) (M : W16 f.w) (r : ω) (R : Nat) :
    runRounds (schedStep f) round M r (R + 1) =
      (circularAfter f M R, (List.range (R + 1)).foldl (fun r t => round r t (sched f M t)) r) := by
  induction R with
  | zero => rfl
  | succ R ih =>
    have ih' := ih
    rw [runRounds] at ih'
    rw [runRounds, List.range_succ, List.foldl_append, ih', List.foldl_append]
    rfl

/-- Two folds over the rounds whose steps agree on every round agree. -/
theorem foldl_range_congr {ω : Type} (g g' : ω → Nat → ω) (R : Nat) (h : ∀ r t, t < R → g r t = g' r t) (r : ω) :
    (List.range R).foldl g r = (List.range R).foldl g' r := by
  induction R with
  | zero => rfl
  | succ R ih =>
    rw [List.range_succ, List.foldl_append, List.foldl_append, ih fun r t ht => h r t (by omega)]
    exact h _ _ (by omega)

end Sys2Proof.Machine
end

