-- ==== Sys2Proof/Tests/Slice0.lean ====
section
/-! SUPPORT. Tests on fixed values, each expected value taken from the spec (95_test_vectors.md unless another file is
named), and for each obligation with hypotheses a concrete state and operands that meet them. -/

open Sys2Proof Sys2Proof.Machine

namespace Sys2Proof.Tests

/-! ### Helpers -/

/-- The machine after reset with bytes in host memory. -/
def holding (a : Nat) (bs : List Byte) : State := { State.reset with mem := Memory.writeBytes [] a bs }

/-- "abc" at 0x1000. -/
def abc : State := holding 0x1000 [0x61, 0x62, 0x63]

/-- The state in which INIT of `alg` has just completed. -/
def fresh (alg : Alg) (s : State) : State := s.putHashing alg (initStep alg)

/-- The state in which "abc" has been absorbed after INIT of `alg`. -/
def absorbed (alg : Alg) (s : State) : State := s.putHashing alg (absorbAll (initStep alg) [0x61, 0x62, 0x63])

/-- An ACTIVE context with the given counter and an empty buffer. -/
def counting (alg : Alg) (bc : Nat) (s : State) : State :=
  s.putHashing alg ⟨⟨iv alg, BitVec.ofNat _ bc, []⟩, 0⟩

/-- STATUS after the command word `v` runs, if the machine goes on. -/
def statusOf (v : W32) (s : State) : Option W32 :=
  match commandWrite v s with
  | .next t => some t.eng.status
  | .fault _ => none
  | .refused _ => none

/-- `n` bytes of memory at `a` and CCOUNT, after one step from `s` with the command word `w` next. -/
def afterStep (w a n : Nat) (s : State) : Option (List Byte × W64) :=
  match step (s.withFetchWord 32 w) with
  | .next t => some (Memory.readBytes t.mem a n, t.eng.ccount)
  | .fault _ => none
  | .refused _ => none

/-- A configuration without FINAL.DISCARD. -/
def noDiscard (s : State) : State := { s with cfg := { s.cfg with hasDiscard := false } }

/-! ### WellFormed: an ill-formed term for each check -/

theorem test_wf_discard_needs_parameter : Instr.wf false .finalDiscard = false := by decide
theorem test_wf_discard : Instr.wf true .finalDiscard = true := by decide
theorem test_wf_update : Instr.wf false .update = true := by decide
theorem test_wf_standard : Config.standard.wf = true := by decide
theorem test_wf_no_engine : Config.wf ⟨64, true, 0, [], []⟩ = false := by decide
theorem test_wf_base_missing : Config.wf ⟨64, true, 2, [0], []⟩ = false := by decide
theorem test_wf_blocks_meet : Config.wf ⟨64, true, 2, [0x100, 0x13F], []⟩ = false := by decide
theorem test_wf_blocks_touch : Config.wf ⟨64, true, 2, [0x100, 0x140], []⟩ = true := by decide

/-! ### Decoding: words written bit by bit from 30_encoding.md R80 (DISCARD, ALG, OP), R81, R84, R87 -/

theorem test_decode_initSha1 : decodeTableWord 32 0b0_001_0001 = some .initSha1 := by decide
theorem test_decode_initSha224 : decodeTableWord 32 0b0_010_0001 = some .initSha224 := by decide
theorem test_decode_initSha256 : decodeTableWord 32 0b0_011_0001 = some .initSha256 := by decide
theorem test_decode_initSha384 : decodeTableWord 32 0b0_100_0001 = some .initSha384 := by decide
theorem test_decode_initSha512 : decodeTableWord 32 0b0_101_0001 = some .initSha512 := by decide
theorem test_decode_update : decodeTableWord 32 0b0_000_0010 = some .update := by decide
theorem test_decode_final : decodeTableWord 32 0b0_000_0011 = some .final := by decide
theorem test_decode_finalDiscard : decodeTableWord 32 0b1_000_0011 = some .finalDiscard := by decide
theorem test_decode_oneshotSha1 : decodeTableWord 32 0b0_001_0100 = some .oneshotSha1 := by decide
theorem test_decode_oneshotSha224 : decodeTableWord 32 0b0_010_0100 = some .oneshotSha224 := by decide
theorem test_decode_oneshotSha256 : decodeTableWord 32 0b0_011_0100 = some .oneshotSha256 := by decide
theorem test_decode_oneshotSha384 : decodeTableWord 32 0b0_100_0100 = some .oneshotSha384 := by decide
theorem test_decode_oneshotSha512 : decodeTableWord 32 0b0_101_0100 = some .oneshotSha512 := by decide
theorem test_decode_tohex : decodeTableWord 32 0b0_000_0101 = some .tohex := by decide

/-- §10 and 60_exceptions.md R302, R309: BAD_OP, on OP values at the edges of the legal range too. -/
theorem test_decode_bad_op : [0x00, 0x0F, 0x16, 0x06, 0x100, 0xFFFFFFFF].map (decode true) =
    List.replicate 6 (.error .badOp) := by decide

/-- §10 and R303: RESERVED_BITS, each of its four conditions, and before BAD_ALG. -/
theorem test_decode_reserved_bits : [0x102, 0x80000001, 0x12, 0x13, 0x15, 0x81, 0x84, 0x85, 0x161].map (decode true) =
    List.replicate 9 (.error .reservedBits) := by decide

theorem test_decode_discard_absent : decode false 0x83 = .error .reservedBits := by decide

/-- §10 and R304: BAD_ALG. -/
theorem test_decode_bad_alg : [0x01, 0x61, 0x71, 0x04, 0x64, 0x74].map (decode true) =
    List.replicate 6 (.error .badAlg) := by decide

/-! ### Word primitives (§3) -/

theorem test_rotations : rotr 1 (0x00000001 : W32) = 0x80000000 ∧ rotr 31 (0x00000001 : W32) = 0x00000002 ∧
    rotl 5 (0x80000001 : W32) = 0x00000030 ∧ rotl 30 (0x12345678 : W32) = 0x048D159E := by decide
theorem test_shifts : shr 3 (0xFFFFFFFF : W32) = 0x1FFFFFFF ∧ shr 10 (0x000003FF : W32) = 0 ∧
    shr 6 (0xFFFFFFFFFFFFFFFF : W64) = 0x03FFFFFFFFFFFFFF := by decide
theorem test_boolean_functions : ch (0 : W32) 0x12345678 0x9ABCDEF0 = 0x9ABCDEF0 ∧
    ch (0xFFFFFFFF : W32) 0x12345678 0x9ABCDEF0 = 0x12345678 ∧ maj (0 : W32) 0xFFFFFFFF 0x12345678 = 0x12345678 ∧
    parity 0xFFFFFFFF 0xFFFFFFFF 0x12345678 = 0x12345678 := by decide
theorem test_sigma256 : bigSigma0of256 1 = 0x40080400 ∧ bigSigma1of256 1 = 0x04200080 ∧ smallSigma0of256 1 = 0x02004000 ∧
    smallSigma1of256 1 = 0x0000A000 ∧ smallSigma0of256 0xFFFFFFFF = 0x1FFFFFFF ∧
    smallSigma1of256 0xFFFFFFFF = 0x003FFFFF := by decide
theorem test_sigma512 : bigSigma0of512 1 = 0x0000001042000000 ∧ bigSigma1of512 1 = 0x0004400000800000 ∧
    smallSigma0of512 1 = 0x8100000000000000 ∧ smallSigma1of512 1 = 0x0000200000000008 := by decide
theorem test_big_endian : beStore 4 0x61626380 = [0x61, 0x62, 0x63, 0x80] ∧
    beLoad [1, 2, 3, 4, 5, 6, 7, 8] = 0x0102030405060708 ∧
    beStore 16 0x380 = List.replicate 14 0 ++ [0x03, 0x80] := by decide

/-! ### Schedule words (§4) -/

/-- The length-only block: W_15 is the length, every other word 0. -/
def lengthOnly (w x : Nat) : W16 w := Vector.ofFn fun i => if i = 15 then BitVec.ofNat w x else 0

theorem test_schedule_e1 : sched .e1 (lengthOnly 32 0x1C0) 18 = 0x00000380 ∧ sched .e1 (lengthOnly 32 0x1C0) 31 = 0x00000480 ∧
    sched .e1 (lengthOnly 32 0x1C0) 79 = 0x04C77400 := by decide +kernel
theorem test_schedule_e256 : sched .e256 (lengthOnly 32 0x1C0) 17 = 0x00D80000 ∧
    sched .e256 (lengthOnly 32 0x1C0) 30 = 0x4C7539CA ∧ sched .e256 (lengthOnly 32 0x1C0) 63 = 0xB9018B52 := by decide +kernel
theorem test_schedule_e512 : sched .e512 (lengthOnly 64 0x380) 17 = 0x0070000000001C0E ∧
    sched .e512 (lengthOnly 64 0x380) 79 = 0xFCC7ADC3AFCEF8BF := by decide +kernel

/-! ### Rounds (43_compression.md R182, R190, R195: "abc") -/

theorem test_round_e1 : (roundStep1 (Work5.load ivSha1) 0 0x61626380).toVector =
    #v[0x0116FC33, 0x67452301, 0x7BF36AE2, 0x98BADCFE, 0x10325476] := by decide +kernel
theorem test_round_e256 :
    (roundStep2 bigSigma0of256 bigSigma1of256 (Work8.load ivSha256) (k256.getD 0 0) 0x61626380).toVector =
      #v[0x5D6AEBCD, 0x6A09E667, 0xBB67AE85, 0x3C6EF372, 0xFA2A4622, 0x510E527F, 0x9B05688C, 0x1F83D9AB] := by
  decide +kernel
theorem test_round_e512 :
    let r := roundStep2 bigSigma0of512 bigSigma1of512 (Work8.load ivSha512) (k512.getD 0 0) 0x6162638000000000
    r.a = 0xF6AFCEB8BCFCDDF5 ∧ r.e = 0x58CB02347AB51F91 := by decide +kernel

/-! ### INIT, UPDATE, FINAL (§6, §7, §10) -/

theorem test_init_status : [0x11, 0x21, 0x31, 0x41, 0x51].map (fun v => statusOf v State.reset) =
    [some 0x011, some 0x021, some 0x031, some 0x041, some 0x051] := by decide

/-- §11 P1: UPDATE of one byte gives BC 8 and one pending byte. -/
theorem test_update_one_byte : exec .update (withOperands (fresh .sha256 abc) 0x1000 1 0) =
    .next (withOperands { fresh .sha256 abc with eng :=
      { (fresh .sha256 abc).eng with ctx := .active .sha256 ⟨ivSha256, 8, [0x61]⟩ } } 0x1000 1 0) := by rfl

/-- §10: RANGE on the source, and its boundary. -/
theorem test_update_range : statusOf 0x02 (withOperands (fresh .sha256 State.reset) 0xFFFFFFFFFFFFFFFF 2 0) = some 0x531 ∧
    statusOf 0x02 (withOperands (fresh .sha256 State.reset) 0xFFFFFFFFFFFFFFFF 1 0) = some 0x031 := by decide

/-- §6: LENGTH at the top of the 64-bit counter, and both sides of the boundary of the 128-bit one. -/
theorem test_update_length : statusOf 0x02 (withOperands (counting .sha256 (2 ^ 64 - 8) State.reset) 0 1 0) = some 0x631 ∧
    statusOf 0x02 (withOperands (counting .sha512 (2 ^ 128 - 16) State.reset) 0 2 0) = some 0x651 ∧
    statusOf 0x02 (withOperands (counting .sha512 (2 ^ 128 - 16) State.reset) 0 1 0) = some 0x051 := by decide

/-- 40_word_primitives.md R108: the low word's overflow increments the high word. -/
theorem test_counter_carry : bcAdd .e512 (0xFFFFFFFFFFFFFFF8 : BitVec 128) 8 = 0x10000000000000000 := by decide

/-- §1 X1: SHA-256 of "abc" by FINAL, with CCOUNT 1 (word 0x03). -/
theorem test_final_sha256_abc : afterStep 0x03 0x2000 33 (withOperands (absorbed .sha256 abc) 0 0 0x2000) =
    some (beStore 32 0xba7816bf8f01cfea414140de5dae2223b00361a396177a9cb410ff61f20015ad ++ [0], 1) := by decide +kernel

/-- §10: FINAL with an unusable destination reports RANGE and wipes. -/
theorem test_final_range : statusOf 0x03 (withOperands (fresh .sha256 State.reset) 0 0 (BitVec.ofNat 64 (2 ^ 64 - 31))) =
    some 0x502 := by decide

/-- §7: FINAL.DISCARD wipes, or is no command. -/
theorem test_final_discard : statusOf 0x83 (absorbed .sha1 abc) = some 0x002 ∧
    statusOf 0x83 (noDiscard (absorbed .sha1 abc)) = some 0x211 := by decide

theorem test_not_active : [0x02, 0x03, 0x83].map (fun v => statusOf v State.reset) = [some 0x400, some 0x400, some 0x400] ∧
    statusOf 0x03 (State.reset.wipe) = some 0x402 := by decide

/-! ### ONESHOT (§2, §8), by one step after reset -/

theorem test_oneshot_sha1_abc : afterStep 0x14 0x2000 21 (withOperands abc 0x1000 3 0x2000) =
    some (beStore 20 0xa9993e364706816aba3e25717850c26c9cd0d89d ++ [0], 1) := by decide +kernel
theorem test_oneshot_sha224_abc : afterStep 0x24 0x2000 29 (withOperands abc 0x1000 3 0x2000) =
    some (beStore 28 0x23097d223405d8228642a477bda255b32aadbce4bda0b3f7e36c9da7 ++ [0], 1) := by decide +kernel
/-- The destination overlaps the source: every source byte is read before the digest is written. -/
theorem test_oneshot_sha256_in_place : afterStep 0x34 0x1000 33 (withOperands abc 0x1000 3 0x1000) =
    some (beStore 32 0xba7816bf8f01cfea414140de5dae2223b00361a396177a9cb410ff61f20015ad ++ [0], 1) := by decide +kernel
theorem test_oneshot_sha384_abc : afterStep 0x44 0x2000 49 (withOperands abc 0x1000 3 0x2000) =
    some (beStore 48
      0xcb00753f45a35e8bb5a03d699ac65007272c32ab0eded1631a8b605a43ff5bed8086072ba1e7cc2358baeca134c825a7 ++ [0], 1) := by
  decide +kernel
theorem test_oneshot_sha512_abc : afterStep 0x54 0x2000 65 (withOperands abc 0x1000 3 0x2000) =
    some (beStore 64
      0xddaf35a193617abacc417349ae20413112e6fa4e89a97ea20a9eeee64b55d39a2192992a274fc1a836ba3c23a3feebbd454d4423643ce80e2a9ac94fa54ca49f
      ++ [0], 1) := by decide +kernel
/-- §8: a refused ONESHOT leaves an active context alone. -/
theorem test_oneshot_range : statusOf 0x34 (withOperands (absorbed .sha1 abc) 0x1000 3 0xFFFFFFFFFFFFFFFF) = some 0x511 := by
  decide

/-! ### TOHEX (§9, §10) -/

theorem test_tohex_bytes : afterStep 0x05 0x2000 17
    (withOperands (holding 0x1000 [0x00, 0x09, 0x0a, 0xa5, 0xff, 0x7f, 0x80, 0x10]) 0x1000 8 0x2000) =
    some ([0x30, 0x30, 0x30, 0x39, 0x30, 0x61, 0x61, 0x35, 0x66, 0x66, 0x37, 0x66, 0x38, 0x30, 0x31, 0x30, 0], 0) := by
  decide +kernel
theorem test_tohex_checks :
    [0x0FF9, 0x0FF8, 0x1004, 0x1003].map (fun d => statusOf 0x05 (withOperands State.reset 0x1000 4 d)) =
      [some 0x700, some 0x000, some 0x000, some 0x700] ∧
    statusOf 0x05 (withOperands State.reset 0x1000 0 0x1000) = some 0x000 ∧
    statusOf 0x05 (withOperands State.reset 0 3 (BitVec.ofNat 64 (2 ^ 64 - 6))) = some 0x000 ∧
    statusOf 0x05 (withOperands State.reset 0 3 (BitVec.ofNat 64 (2 ^ 64 - 5))) = some 0x500 ∧
    statusOf 0x05 (withOperands State.reset (BitVec.ofNat 64 (2 ^ 64 - 1)) 2 (BitVec.ofNat 64 (2 ^ 64 - 2))) = some 0x500 := by
  decide +kernel

/-! ### The host's side -/

/-- §11 P1, the encoded stream of its second line. -/
theorem test_host_line : HostLine.expand false 0 (.command .update (some 0x1000) (some 1) none) =
    some [.regWrite 0 0x08 8 0x1000, .regWrite 0 0x10 8 1, .regWrite 0 0x00 4 0x02] := by decide

/-- 30_encoding.md R94: WIPE exists only under HAS_DISCARD. -/
theorem test_wipe_line : HostLine.expand false 0 .wipe = none ∧
    HostLine.expand true 0 .wipe = some [.regWrite 0 0x00 4 0x83] := by decide

/-- A line and a memory line that are none: the field ends outside STATUS, the text is not ASCII, the bytes leave the
address space. -/
theorem test_program_wf : HostLine.wf true (.check .status ⟨32, 0⟩ 0) = false ∧ HostLine.wf true (.wr .reserved 0) = false ∧
    HostLine.wf true (.check .status statusErr 0) = true ∧
    MemoryLine.wf Config.standard (.ascii 0 [Char.ofNat 0x80]) = false ∧
    MemoryLine.wf Config.standard (.byte (2 ^ 64 - 1) [1, 2]) = false ∧
    MemoryLine.wf Config.standard (.byte (2 ^ 64 - 1) [1]) = true := by decide

/-- §11 P1's start and its last line: "abc" in place, and the assertion recorded. -/
theorem test_program_start :
    ((State.reset.withProgram 0 ⟨[.ascii 0x1000 ['a', 'b', 'c']], [.check .status statusErr 0]⟩).map fun s =>
      (Memory.readBytes s.mem 0x1000 4,
        match step s with
        | .next t => t.checks
        | .fault _ => []
        | .refused _ => [])) = some ([0x61, 0x62, 0x63, 0], [true]) := by decide

/-- §11 P4: after `WR CMD, 0x84` on an ACTIVE context ERR is 2, so the first of these assertions fails. -/
theorem test_check_after_error :
    (match Host.Core.run core 3 { fresh .sha1 State.reset with queue :=
        [.regWrite 0 0x00 4 0x84, .check 0 0x20 4 statusErr 0, .check 0 0x20 4 statusErr 2] } with
      | .next t => t.checks
      | .fault _ => []
      | .refused _ => []) = [false, true] := by decide

/-- A 4-byte write carries the low 32 bits (assumption log 18). -/
theorem test_wide_value : perform (.regWrite 0 0x00 4 0x100000006) State.reset =
    .next { State.reset with eng := { State.reset.eng with err := .badOp } } := by rfl

/-- The host's own access to side-effecting memory (assumption log 9). -/
theorem test_host_device : perform (.memRead 0x1002)
    { State.reset with cfg := { Config.standard with sideEffect := [⟨0x1002, 1⟩] } } = .refused .sideEffectMemory := by rfl

/-- 10_state.md R48: a 32-bit access to ARG0 has no meaning. -/
theorem test_partial_access : perform (.regRead 0 0x08 4) State.reset = .refused .registerAccess := by rfl

/-- Host memory after reset is canonical, and a racing address outside the address space faults. -/
theorem test_race_outside : perform (.race 0 0x05 [2 ^ 64]) State.reset = .fault .noSuchAddress := by rfl

/-- An action on an instance the platform does not hold. -/
theorem test_no_instance : perform (.reset 1) State.reset = .fault .noSuchInstance := by rfl

/-! ### Witnesses: each obligation's hypotheses are met -/

theorem witness_DecodeInvertsEncode : Instr.wf false .tohex = true ∧ Instr.wf true .finalDiscard = true := by decide

theorem witness_IllegalWordChangesOnlyErr :
    (∀ i : Instr, i.wf State.reset.cfg.hasDiscard = true → (0x06 : W32) ≠ printedWord i) ∧
      ∀ i : Instr, i.wf (noDiscard State.reset).cfg.hasDiscard = true → (0x83 : W32) ≠ printedWord i := by
  constructor <;> intro i h <;> cases i <;> first | decide | cases h

theorem witness_StepRunsTheDecodedCommand :
    let s := { State.reset with queue := [.regWrite 0 0x00 4 0x31] }
    s.queue = .regWrite 0 0x00 4 0x31 :: [] ∧ State.select 0 { s with queue := [] } = some State.reset ∧
      decode s.cfg.hasDiscard ((0x31 : W64).setWidth 32) = .ok .initSha256 ∧ 0x31 < 2 ^ 32 ∧
      decode s.cfg.hasDiscard (BitVec.ofNat 32 0x31) = .ok .initSha256 := by decide

theorem witness_RotationsMoveBits : 0 < 1 ∧ 31 < 32 ∧ (rotr 31 (1 : W32)).getLsbD 1 = true := by decide

theorem witness_BooleanFunctionsByBit : 63 < 64 ∧ 31 < 32 ∧ (ch (1 : W64) 1 0).getLsbD 0 = true := by decide

/-- The last bit, where σ's shift has left the word. -/
theorem witness_SigmaFunctionsByBit : 31 < 32 ∧ ¬31 + 3 < 32 ∧ 28 + 3 < 32 ∧ 63 < 64 ∧ ¬63 + 6 < 64 := by decide

theorem witness_BigEndianRoundTrips : 0x380 < 2 ^ (8 * 16) ∧ 15 < 16 := by decide

theorem witness_ConstantsAreFractionalRoots : 79 < 80 ∧ 63 < 64 ∧ 3 < 4 ∧ firstPrimes.length = 80 := by decide +kernel

/-- The rounds where E1's function and constant change. -/
theorem witness_RoundsFollowTheEquations : 19 ≤ 19 ∧ ¬20 ≤ 19 ∧ 39 ≤ 39 ∧ ¬40 ≤ 39 ∧ 59 ≤ 59 ∧ ¬60 ≤ 59 ∧ 79 < 80 := by decide

theorem witness_CircularScheduleEqualsEager : 79 < Family.e1.rounds ∧ 63 < Family.e256.rounds ∧ 79 < Family.e512.rounds := by
  decide

theorem witness_InitForgetsTheOldContext : Instr.initSha384 ∈ initializing := by decide

/-- UPDATE of "abc" on a fresh context. -/
theorem witness_UpdateAbsorbsTheChunk :
    let s := withOperands (fresh .sha256 abc) 0x1000 3 0
    s.eng.ctx = .active .sha256 (initStep .sha256).act ∧ Represents .sha256 [] (initStep .sha256).act ∧
      ¬LeavesSpace s s.eng.arg0.toNat s.eng.arg1.toNat ∧ 8 * (0 + s.eng.arg1.toNat) < 2 ^ Alg.sha256.family.LW ∧
      plainRange s.cfg s.eng.arg0.toNat s.eng.arg1.toNat = true :=
  ⟨rfl, represents_init _, by decide, by decide, rfl⟩

/-- One byte, at the top of the address space. -/
theorem witness_UpdateOfOneByte :
    let s := withOperands (fresh .sha256 abc) 0xFFFFFFFFFFFFFFFF 1 0
    s.eng.ctx = .active .sha256 (initStep .sha256).act ∧ s.eng.arg1 = 1 ∧ s.eng.arg0.toNat < 2 ^ s.cfg.addrW ∧
      (initStep .sha256).act.bc.toNat + 8 < 2 ^ Alg.sha256.family.LW ∧ plainRange s.cfg s.eng.arg0.toNat 1 = true :=
  ⟨rfl, rfl, by decide, by decide, rfl⟩

theorem witness_UpdateSplitsAtAnyPoint :
    (fresh .sha256 abc).eng.ctx = .active .sha256 (initStep .sha256).act ∧ 0x1000 + 1 < 2 ^ 64 ∧ 1 + 2 < 2 ^ 64 ∧
      0x1000 + 1 + 2 ≤ 2 ^ (fresh .sha256 abc).cfg.addrW ∧
      (initStep .sha256).act.bc.toNat + 8 * (1 + 2) < 2 ^ Alg.sha256.family.LW ∧
      plainRange (fresh .sha256 abc).cfg 0x1000 (1 + 2) = true :=
  ⟨rfl, by decide, by decide, by decide, by decide, rfl⟩

theorem witness_BlockwiseUpdateAgrees :
    let x : Hashing .e256 := ⟨⟨ivSha256, 8, [0x61]⟩, 0⟩
    x.act.buf.length = x.act.bc.toNat / 8 % Family.e256.B := by decide

theorem witness_ZeroLengthUpdate : (withOperands (fresh .sha1 abc) 0x1000 0 0).eng.arg1 = 0 ∧
    (withOperands (fresh .sha1 abc) 0x1000 0 0).eng.ctx.phase = 1 ∧ State.reset.eng.ctx.phase ≠ 1 := by decide

/-- §6's counter states, one of each bound. -/
theorem witness_UpdateRefusesOverlongMessages :
    let s := withOperands (counting .sha256 (2 ^ 64 - 8) State.reset) 0 1 0
    let t := withOperands (counting .sha512 (2 ^ 128 - 16) State.reset) 0 2 0
    ¬LeavesSpace s s.eng.arg0.toNat s.eng.arg1.toNat ∧ 2 ^ 64 ≤ s.eng.ctx.bcValue + 8 * s.eng.arg1.toNat ∧
      ¬LeavesSpace t t.eng.arg0.toNat t.eng.arg1.toNat ∧ 2 ^ 128 ≤ t.eng.ctx.bcValue + 8 * t.eng.arg1.toNat := by decide

/-- The digest range ends at the last byte of the address space. -/
theorem witness_FinalDeliversTheHash :
    let s := withOperands (fresh .sha256 abc) 0 0 (BitVec.ofNat 64 (2 ^ 64 - 32))
    s.eng.ctx = .active .sha256 (initStep .sha256).act ∧ Represents .sha256 [] (initStep .sha256).act ∧
      ¬LeavesSpace s s.eng.arg2.toNat Alg.sha256.DL ∧ plainRange s.cfg s.eng.arg2.toNat Alg.sha256.DL = true :=
  ⟨rfl, represents_init _, by decide, rfl⟩

/-- The last `used` with one compression and the first with two, of both block sizes. -/
theorem witness_FinalCountsOneOrTwoCompressions :
    let s (alg : Alg) (used : Nat) := withOperands (counting alg (8 * used) abc) 0 0 0x2000
    (∀ alg, ¬LeavesSpace (s alg 0) 0x2000 alg.DL ∧ plainRange (s alg 0).cfg 0x2000 alg.DL = true) ∧
      (s .sha256 55).eng.ctx.bcValue / 8 % 64 ≤ 55 ∧ 56 ≤ (s .sha256 56).eng.ctx.bcValue / 8 % 64 ∧
      (s .sha512 111).eng.ctx.bcValue / 8 % 128 ≤ 111 ∧ 112 ≤ (s .sha512 112).eng.ctx.bcValue / 8 % 128 :=
  ⟨fun alg => by cases alg <;> decide, by decide, by decide, by decide, by decide⟩

theorem witness_FinalUnusableDestinationWipes :
    let s := withOperands (fresh .sha256 abc) 0 0 (BitVec.ofNat 64 (2 ^ 64 - 31))
    s.eng.ctx.phase = 1 ∧ LeavesSpace s s.eng.arg2.toNat Alg.sha256.DL := by decide

theorem witness_DiscardWipesWithoutCompressing : (fresh .sha1 abc).eng.ctx.phase = 1 ∧ State.reset.eng.ctx.phase ≠ 1 ∧
    (noDiscard State.reset).cfg.hasDiscard = false := by decide

theorem witness_WipeLeavesNothingAndClosesTheContext :
    Instr.finalDiscard ∈ finalizing ∧
      ∃ t, exec .finalDiscard (absorbed .sha1 abc) = .next t ∧ t.eng.err = .ok :=
  ⟨by decide, _, rfl, rfl⟩

theorem witness_PaddingFillsWholeBlocks : (55 + 1 + 0 + printedL .e256) % printedB .e256 = 0 ∧
    (111 + 1 + 0 + printedL .e512) % printedB .e512 = 0 := by decide

theorem witness_OneshotDeliversTheHash :
    let s := withOperands abc 0x1000 3 0x1000
    ¬LeavesSpace s s.eng.arg0.toNat s.eng.arg1.toNat ∧ ¬LeavesSpace s s.eng.arg2.toNat Alg.sha512.DL ∧
      8 * s.eng.arg1.toNat < 2 ^ Alg.sha512.family.LW ∧ plainRange s.cfg s.eng.arg0.toNat s.eng.arg1.toNat = true ∧
      plainRange s.cfg s.eng.arg2.toNat Alg.sha512.DL = true := by decide

theorem witness_OneshotEqualsInitUpdateFinal :
    ∃ t, exec (Instr.oneshotOf .sha1) (withOperands abc 0x1000 3 0x2000) = .next t ∧ t.eng.err = .ok :=
  ⟨_, (exec_oneshotOf _ _).trans (oneshotCommand_ok rfl rfl (by decide) rfl rfl), rfl⟩

/-- The text begins just after its source. -/
theorem witness_TohexWritesLowercaseHex :
    let s := withOperands abc 0x1000 3 0x1003
    Memory.wf s.mem = true ∧ ¬LeavesSpace s 0x1000 3 ∧ ¬LeavesSpace s 0x1003 (2 * 3) ∧ 0x1000 + 3 ≤ 0x1003 ∧
      plainRange s.cfg 0x1000 3 = true ∧ plainRange s.cfg 0x1003 (2 * 3) = true := by decide

/-- A destination one byte too long, and ranges that share their last and first byte. -/
theorem witness_TohexChecksItsRanges :
    let s := withOperands abc 0x1000 4 0x1003
    LeavesSpace s (2 ^ 64 - 7) (2 * 4) ∧ LeavesSpace s (2 ^ 64 - 3) 4 ∧ ¬LeavesSpace s 0x1000 4 ∧ ¬LeavesSpace s 0x1003 (2 * 4) ∧
      0x1000 ≤ 0x1003 ∧ 0x1003 < 0x1000 + 4 ∧ 0x1003 ≤ 0x1003 ∧ 0x1003 < 0x1003 + 2 * 4 := by decide

/-- A state for each clause of the priority. -/
theorem witness_ErrorsFollowThePriority :
    decode State.reset.cfg.hasDiscard 0x06 = .error .badOp ∧ State.reset.eng.ctx.phase ≠ 1 ∧
      State.reset.cfg.hasDiscard = true ∧ LeavesSpace State.reset (2 ^ 64 - 1) 2 ∧ ¬LeavesSpace State.reset (2 ^ 64 - 1) 1 ∧
      LeavesSpace State.reset (2 ^ 64 - 31) Alg.sha256.DL ∧ ¬LeavesSpace State.reset (2 ^ 64 - 32) Alg.sha256.DL ∧
      LeavesSpace State.reset (2 ^ 64 - 5) (2 * 3) ∧
      2 ^ Alg.sha256.family.LW ≤ (2 ^ 64 - 8) + 8 * 1 ∧ ¬LeavesSpace State.reset 0 (2 ^ 61) ∧
      2 ^ Alg.sha256.family.LW ≤ 8 * 2 ^ 61 ∧ 0x1000 < 0x0FF9 + 2 * 4 ∧ 0x0FF9 < 0x1000 + 4 := by decide

/-- A refusal that only sets ERR, and FINAL's that wipes. -/
theorem witness_RefusedCommandChangesOnlyErr :
    (∃ t, commandWrite 0x02 State.reset = .next t ∧ t.eng.err ≠ .ok) ∧
      ∃ t, commandWrite 0x03 (withOperands (fresh .sha256 abc) 0 0 0xFFFFFFFFFFFFFFFF) = .next t ∧ t.eng.err ≠ .ok :=
  ⟨⟨_, rfl, by decide⟩, ⟨_, rfl, by decide⟩⟩

theorem witness_EveryCommandWordIsAnswered : State.reset.cfg.sideEffect = [] := rfl

theorem witness_CommandsKeepOperandsAndOtherInstances : ∃ t, commandWrite 0x31 State.reset = .next t := ⟨_, rfl⟩

/-- TOHEX, which reads and writes: addresses inside and outside its ranges. -/
theorem witness_AccessesStayInTheirRanges :
    let s := withOperands abc 0x1000 3 0x1003
    (∃ t, exec .tohex s = .next t ∧ t.eng.err = .ok) ∧ storeRange .tohex s = (0x1003, 6) ∧ readRange .tohex s = (0x1000, 3) ∧
      Memory.wf s.mem = true ∧ Memory.wf [] = true :=
  ⟨⟨_, rfl, rfl⟩, rfl, rfl, rfl, rfl⟩

theorem witness_PhaseMovesAsRuled : State.reset.eng.ctx.phase ≠ 1 ∧
    (∃ t, exec .initSha1 State.reset = .next t ∧ t.eng.ctx.phase ≠ State.reset.eng.ctx.phase) ∧
    ∃ t, perform (.reset 0) (fresh .sha1 abc) = .next t ∧ (fresh .sha1 abc).cur ≤ (fresh .sha1 abc).parked.length ∧
      (fresh .sha1 abc).engines[0]? = some (fresh .sha1 abc).eng ∧ t.engines[0]? = some Engine.reset ∧
      (fresh .sha1 abc).eng.ctx.phase ≠ 0 ∧ Engine.reset.ctx.phase = 0 :=
  ⟨by decide, ⟨_, rfl, by decide⟩, ⟨_, rfl, by decide, rfl, rfl, by decide, rfl⟩⟩

theorem witness_PartialRegisterAccessIsRefused : ((2 ≠ 4 ∧ 2 ≠ 8) ∧ ((0x20 : BitVec 6) = 0x20 ∧ 8 ≠ 4)) ∧
    ((0x28 : BitVec 6) = 0x28 ∧ 4 ≠ 8) ∧ (0x0A : BitVec 6).toNat % 4 ≠ 0 ∧
    (8 = 8 ∧ (0x2C : BitVec 6).toNat % 8 ≠ 0) := by decide

/-- Two ACTIVE contexts of one algorithm that differ in H, BC and BUF. -/
theorem witness_ContextIsHiddenFromTheHost :
    let s := fresh .sha1 abc
    let c := (absorbed .sha1 abc).eng.ctx
    c ≠ s.eng.ctx ∧ c.phase = s.eng.ctx.phase ∧ c.algCode = s.eng.ctx.algCode ∧
      (∃ t, perform (.regRead s.cur 0x20 4) s = .next t) ∧ (0x08 : BitVec 6) ≠ 0x00 ∧
      ∃ t, perform (.regWrite s.cur 0x08 8 1) s = .next t :=
  ⟨by decide, by decide, by decide, ⟨_, rfl⟩, by decide, ⟨_, rfl⟩⟩

/-- Two instances, an action on the second. -/
theorem witness_InstancesAreIndependent :
    let s := State.resetOf ⟨64, true, 2, [2 ^ 64, 2 ^ 64 + 0x40], []⟩
    s.cur ≤ s.parked.length ∧ (∃ t, perform (.regWrite 1 0x00 4 0x11) s = .next t) ∧
      instanceOf (.regWrite 1 0x00 4 0x11) ≠ some 0 :=
  ⟨by decide, ⟨_, rfl⟩, by decide⟩

theorem witness_HostMemoryReadsBack : Memory.wf abc.mem = true ∧ 2 ^ 64 - 1 < 2 ^ abc.cfg.addrW ∧
    inRegisterBlock abc.cfg (2 ^ 64 - 1) = false ∧ plainRange abc.cfg (2 ^ 64 - 1) 1 = true ∧ 0 ≠ 2 ^ 64 - 1 := by decide

theorem witness_ResetIsSound : 1 ≤ Config.standard.nEngines := by decide

/-- The reset machine is sound, and steps. -/
theorem witness_EveryStepKeepsSoundness :
    let s := State.reset.withFetchWord 32 0x31
    s.Sound ∧ ∃ t, step s = .next t :=
  ⟨⟨rfl, fun c hc => (List.not_mem_nil hc).elim, Nat.le_refl _, rfl,
    fun e he => by have := List.mem_singleton.1 he; rw [this]; trivial⟩, ⟨_, rfl⟩⟩

theorem witness_ProperRunsNeverStop :
    let s := State.reset.withFetchWord 32 0x31
    s.cfg.sideEffect = [] ∧ ∀ act ∈ s.queue, proper s.cfg act = true := by decide

theorem witness_IdleEngineKeepsItsState : State.reset.queue = [] := rfl

/-- A command, and a word that is none. -/
theorem witness_RacesStayLocal : (∃ t, perform (.race abc.cur 0x31 [0x1000]) abc = .next t) ∧ 0x1001 ∉ [0x1000] ∧
    (∃ t, perform (.race abc.cur 0x06 [0x1000]) abc = .next t) ∧
    ∀ i, decode abc.cfg.hasDiscard 0x06 = .ok i → 0x1001 < (storeRange i abc).1 :=
  ⟨⟨_, rfl⟩, by decide, ⟨_, rfl⟩, fun i h => by have : (Except.error ErrCode.badOp : Except ErrCode Instr) = .ok i := h; cases this⟩

/-- A command, and a word that is none. -/
theorem witness_ResetDuringCommandStaysLocal : decode abc.cfg.hasDiscard 0x05 = .ok .tohex ∧
    (∃ t, perform (.resetDuring abc.cur 0x05) abc = .next t) ∧ ∃ t, perform (.resetDuring abc.cur 0x06) abc = .next t :=
  ⟨by decide, ⟨_, rfl⟩, ⟨_, rfl⟩⟩

/-- "abc" on a platform with a device of one byte at `d`. -/
def withDevice (d : Nat) (s : State) : State := { s with cfg := { s.cfg with sideEffect := [⟨d, 1⟩] } }

/-- For each command the device is the last byte read or the last byte written. -/
theorem witness_SideEffectMemoryIsRefused :
    let s := withDevice 0x1002 (withOperands (fresh .sha1 abc) 0x1000 3 0x2000)
    let t := withDevice 0x2013 (withOperands (fresh .sha1 abc) 0x1000 3 0x2000)
    let u := withDevice 0x2005 (withOperands abc 0x1000 3 0x2000)
    s.eng.ctx = .active .sha1 (initStep .sha1).act ∧ ¬LeavesSpace s 0x1000 3 ∧
      (initStep .sha1).act.bc.toNat + 8 * 3 < 2 ^ Alg.sha1.family.LW ∧ MeetsDevice s 0x1000 3 ∧
      ¬LeavesSpace t 0x2000 Alg.sha1.DL ∧ MeetsDevice t 0x2000 Alg.sha1.DL ∧ 8 * 3 < 2 ^ Alg.sha1.family.LW ∧
      ¬LeavesSpace u 0x2000 (2 * 3) ∧ 0x1000 + 3 ≤ 0x2000 ∧ MeetsDevice u 0x2000 (2 * 3) ∧
      0x1002 < 2 ^ s.cfg.addrW ∧ MeetsDevice s 0x1002 1 ∧ inRegisterBlock s.cfg 0x1002 = false :=
  ⟨rfl, by decide, by decide, ⟨0x1002, by decide, by decide, ⟨0x1002, 1⟩, by decide, by decide, by decide⟩, by decide,
    ⟨0x2013, by decide, by decide, ⟨0x2013, 1⟩, by decide, by decide, by decide⟩, by decide, by decide, by decide,
    ⟨0x2005, by decide, by decide, ⟨0x2005, 1⟩, by decide, by decide, by decide⟩, by decide,
    ⟨0x1002, by decide, by decide, ⟨0x1002, 1⟩, by decide, by decide, by decide⟩, by decide⟩

theorem witness_ExtractIsABigEndianPrefix : 27 < printedDL .sha224 ∧ 27 / 4 = 6 ∧ 47 < printedDL .sha384 ∧ 47 / 8 = 5 := by
  decide

theorem witness_BlockWordsAndFeedForward : (List.replicate 64 (0 : Byte)).length = 16 * (32 / 8) ∧
    (List.replicate 128 (0 : Byte)).length = 16 * (64 / 8) := by decide

/-- Two lines, the second over the first's last byte: the first's own byte, the second's, and one outside. -/
theorem witness_ProgramStartsWithItsMemory :
    let m : MemoryLine := .byte 0x1000 [1, 2]
    let m' : MemoryLine := .ascii 0x1001 ['a']
    let p : HostProgram := ⟨[m, m'], [.check .status statusErr 0]⟩
    Memory.wf State.reset.mem = true ∧ (∃ t, State.reset.withProgram 0 p = some t) ∧ p.memory = [] ++ m :: [m'] ∧
      0 < m.bytes.length ∧ m.start + 0 < m'.start ∧ p.memory = [m] ++ m' :: [] ∧ 0 < m'.bytes.length ∧
      ∀ l ∈ p.memory, 0x1002 < l.start ∨ l.start + l.bytes.length ≤ 0x1002 :=
  ⟨rfl, ⟨_, rfl⟩, rfl, by decide, by decide, rfl, by decide, by decide⟩

theorem witness_HashLineEqualsOneshotLine :
    let line : HostLine := .command (Instr.oneshotOf .sha1) (some 0) (some 0) (some 0)
    ∃ t, Host.Core.run core 4 { State.reset with queue := line.actions 0 } = .next t ∧ t.eng.err = .ok :=
  ⟨deliverDigest .sha1 (initStep .sha1) State.reset, rfl, rfl⟩

theorem witness_ScheduleFollowsTheRecurrence : 16 ≤ 16 ∧ 16 ≤ 79 ∧ 79 < 80 ∧ 16 ≤ 63 ∧ 63 < 64 := by decide

theorem witness_WipeAndUpdateEmptyLines : (noDiscard State.reset).cfg.hasDiscard = false ∧ HostLine.wipe ∈ [HostLine.wipe] ∧
    State.reset.cfg.hasDiscard = true ∧ (fresh .sha1 abc).eng.ctx.phase = 1 := by decide

end Sys2Proof.Tests
end

section
/-! O46: reset. The values of R54 are read off `Engine.reset`; a reset of the addressed instance puts exactly that
record in place, and the machine after reset holds no other. -/

namespace Sys2Proof.Machine

section engineReset
@[simp] theorem reset_ctx : Engine.reset.ctx = .invalid := rfl
@[simp] theorem reset_arg0 : Engine.reset.arg0 = 0 := rfl
@[simp] theorem reset_arg1 : Engine.reset.arg1 = 0 := rfl
@[simp] theorem reset_arg2 : Engine.reset.arg2 = 0 := rfl
@[simp] theorem reset_ccount : Engine.reset.ccount = 0 := rfl
@[simp] theorem reset_status : Engine.reset.status = 0 := rfl
end engineReset

section invalidContext
@[simp] theorem algCode_invalid : Ctx.invalid.algCode = 0 := rfl
@[simp] theorem hWord_invalid (i : Nat) : Ctx.invalid.hWord i = 0 := rfl
@[simp] theorem bcValue_invalid : Ctx.invalid.bcValue = 0 := rfl
@[simp] theorem pending_invalid : Ctx.invalid.pending = [] := rfl
end invalidContext

/-- A reset of the addressed instance always completes (R340). -/
theorem perform_reset_cur (s : State) : perform (.reset s.cur) s = .next (resetEngine s) :=
  onInstance_cur (fun t => .next (resetEngine t)) s

/-- Every instance of the machine after reset is in its reset state (R331). -/
theorem eq_reset_of_mem_engines_resetOf {c : Config} {e : Engine} (h : e ∈ (State.resetOf c).engines) :
    e = Engine.reset := by
  rcases (mem_engines _ e).mp h with he | he
  · exact he
  · exact List.eq_of_mem_replicate he

end Sys2Proof.Machine

namespace Sys2Proof
open Machine

/-- Settles O46: the reset record has R54's values, the reset action writes it over the addressed instance only, and
every instance of `State.resetOf` is that record. -/
theorem resetValues : Obligations.ResetValues := by
  unfold Obligations.ResetValues
  intro IsReset
  have reset_isReset : IsReset Engine.reset := by simp [IsReset]
  constructor
  · intro s
    exact ⟨resetEngine s, perform_reset_cur s, reset_isReset, rfl⟩
  · intro c e he
    exact eq_reset_of_mem_engines_resetOf he ▸ reset_isReset

end Sys2Proof
end

section
/-! O3, O5: the decoder. R92's checks are read as integer arithmetic on the word (`decode_eq`); a word that passes them
is the printed word of a command that exists (`exists_eq_printedWord`), and the decoder reads that command back
(`decode_printedWord`). -/

namespace Sys2Proof
open Machine

/-! ### The fields as integers -/

theorem opField_eq_iff (v : W32) (c : BitVec 4) : opField v = c ↔ v.toNat % 16 = c.toNat := by
  simp [opField, ← BitVec.toNat_inj]

@[simp] theorem opField_eq_opInit (v : W32) : opField v = opInit ↔ v.toNat % 16 = 1 := opField_eq_iff v opInit

@[simp] theorem opField_eq_opUpdate (v : W32) : opField v = opUpdate ↔ v.toNat % 16 = 2 := opField_eq_iff v opUpdate

@[simp] theorem opField_eq_opFinal (v : W32) : opField v = opFinal ↔ v.toNat % 16 = 3 := opField_eq_iff v opFinal

@[simp] theorem opField_eq_opOneshot (v : W32) : opField v = opOneshot ↔ v.toNat % 16 = 4 := opField_eq_iff v opOneshot

@[simp] theorem opField_eq_opTohex (v : W32) : opField v = opTohex ↔ v.toNat % 16 = 5 := opField_eq_iff v opTohex

theorem algField_toNat (v : W32) : (algField v).toNat = v.toNat / 16 % 8 := by
  simp [algField, Nat.shiftRight_eq_div_pow]

@[simp] theorem algField_eq_zero (v : W32) : algField v = 0#3 ↔ v.toNat / 16 % 8 = 0 := by
  rw [← BitVec.toNat_inj, algField_toNat]; rfl

@[simp] theorem discardField_eq_one (v : W32) : discardField v = 1#1 ↔ v.toNat / 128 % 2 = 1 := by
  simp [discardField, ← BitVec.toNat_inj, Nat.shiftRight_eq_div_pow]

@[simp] theorem reservedField_eq_zero (v : W32) : reservedField v = 0#24 ↔ v.toNat / 256 = 0 := by
  simp [reservedField, ← BitVec.toNat_inj, Nat.shiftRight_eq_div_pow]; omega

/-! ### R92's checks over integer fields -/

/-- BAD_OP's check (R92): OP is none of 1 to 5. -/
abbrev BadOp (v : W32) : Prop := v.toNat % 16 = 0 ∨ 6 ≤ v.toNat % 16

/-- RESERVED_BITS' checks (R92), for a word whose OP is in range. -/
abbrev ReservedBits (d : Bool) (v : W32) : Prop :=
  v.toNat / 256 ≠ 0 ∨ ((v.toNat % 16 = 2 ∨ v.toNat % 16 = 3 ∨ v.toNat % 16 = 5) ∧ v.toNat / 16 % 8 ≠ 0) ∨
    (v.toNat % 16 ≠ 3 ∧ v.toNat / 128 % 2 = 1) ∨ (v.toNat % 16 = 3 ∧ v.toNat / 128 % 2 = 1 ∧ d = false)

/-- BAD_ALG's check (R92): INIT or ONESHOT with an ALG that selects no algorithm. -/
abbrev BadAlg (v : W32) : Prop :=
  (v.toNat % 16 = 1 ∨ v.toNat % 16 = 4) ∧ (v.toNat / 16 % 8 = 0 ∨ 6 ≤ v.toNat / 16 % 8)

theorem badOp_iff (v : W32) : BadOp v ↔ opField v ≠ opInit ∧ opField v ≠ opUpdate ∧ opField v ≠ opFinal ∧
    opField v ≠ opOneshot ∧ opField v ≠ opTohex := by
  simp only [ne_eq, opField_eq_opInit, opField_eq_opUpdate, opField_eq_opFinal, opField_eq_opOneshot, opField_eq_opTohex]
  omega

/-- The decoder over integer fields: BAD_OP's check, then RESERVED_BITS', then the command of the fields. -/
theorem decode_eq (d : Bool) (v : W32) :
    decode d v = if BadOp v then .error .badOp else if ReservedBits d v then .error .reservedBits
      else commandOf (opField v) (algField v) (discardField v) := by
  simp [decode, badOp_iff, ReservedBits, ite_or]

theorem decode_of_badOp {d : Bool} {v : W32} (h : BadOp v) : decode d v = .error .badOp := by
  rw [decode_eq, if_pos h]

theorem decode_of_reservedBits {d : Bool} {v : W32} (hop : ¬BadOp v) (h : ReservedBits d v) :
    decode d v = .error .reservedBits := by
  rw [decode_eq, if_neg hop, if_pos h]

theorem ofCode_eq_none {c : BitVec 3} : c.toNat = 0 ∨ 6 ≤ c.toNat → Alg.ofCode c = none := by
  revert c; decide

theorem decode_of_badAlg {d : Bool} {v : W32} (hop : ¬BadOp v) (hres : ¬ReservedBits d v) (h : BadAlg v) :
    decode d v = .error .badAlg := by
  obtain ⟨hcmd, halg⟩ := h
  have hnone : Alg.ofCode (algField v) = none := ofCode_eq_none (by rwa [algField_toNat])
  rw [decode_eq, if_neg hop, if_neg hres]
  rcases hcmd with hinit | honeshot
  · simp [commandOf, hinit, hnone]
  · simp [commandOf, honeshot, hnone]

/-! ### The words that pass -/

theorem decode_printedWord {d : Bool} {i : Instr} : i.wf d = true → decode d (printedWord i) = .ok i := by
  revert d; cases i <;> decide

theorem printedWord_initOf (a : Alg) : (printedWord (.initOf a)).toNat = 16 * printedAlg a + 1 := by
  cases a <;> rfl

theorem printedWord_oneshotOf (a : Alg) : (printedWord (.oneshotOf a)).toNat = 16 * printedAlg a + 4 := by
  cases a <;> rfl

theorem wf_initOf (d : Bool) (a : Alg) : (Instr.initOf a).wf d = true := by cases a <;> rfl

theorem wf_oneshotOf (d : Bool) (a : Alg) : (Instr.oneshotOf a).wf d = true := by cases a <;> rfl

/-- Each of the codes 1 to 5 is an algorithm's (R84). -/
theorem exists_printedAlg {n : Nat} (h : 1 ≤ n) (h' : n ≤ 5) : ∃ a, printedAlg a = n := by
  interval_cases n
  exacts [⟨.sha1, rfl⟩, ⟨.sha224, rfl⟩, ⟨.sha256, rfl⟩, ⟨.sha384, rfl⟩, ⟨.sha512, rfl⟩]

/-- A word that passes R92's checks is the printed word of a command that exists: OP selects the row, and under INIT and
ONESHOT ALG the algorithm. -/
theorem exists_eq_printedWord {d : Bool} {v : W32} (hop : ¬BadOp v) (hres : ¬ReservedBits d v) (halg : ¬BadAlg v) :
    ∃ i : Instr, i.wf d = true ∧ v = printedWord i := by
  have hops : v.toNat % 16 = 1 ∨ v.toNat % 16 = 2 ∨ v.toNat % 16 = 3 ∨ v.toNat % 16 = 4 ∨ v.toNat % 16 = 5 := by omega
  rcases hops with h | h | h | h | h
  · obtain ⟨a, ha⟩ := exists_printedAlg (n := v.toNat / 16 % 8) (by omega) (by omega)
    exact ⟨.initOf a, wf_initOf d a, BitVec.eq_of_toNat_eq (by rw [printedWord_initOf]; omega)⟩
  · exact ⟨.update, rfl, BitVec.eq_of_toNat_eq (show v.toNat = 2 by omega)⟩
  · by_cases hdisc : v.toNat / 128 % 2 = 1
    · have hd : d = true := Bool.eq_true_of_not_eq_false fun hd => hres (.inr (.inr (.inr ⟨h, hdisc, hd⟩)))
      exact ⟨.finalDiscard, hd, BitVec.eq_of_toNat_eq (show v.toNat = 0x83 by omega)⟩
    · exact ⟨.final, rfl, BitVec.eq_of_toNat_eq (show v.toNat = 3 by omega)⟩
  · obtain ⟨a, ha⟩ := exists_printedAlg (n := v.toNat / 16 % 8) (by omega) (by omega)
    exact ⟨.oneshotOf a, wf_oneshotOf d a, BitVec.eq_of_toNat_eq (by rw [printedWord_oneshotOf]; omega)⟩
  · exact ⟨.tohex, rfl, BitVec.eq_of_toNat_eq (show v.toNat = 5 by omega)⟩

/-- Settles O3: each check that fails decides the error, and a word that passes them all is a printed word, which the
decoder reads back. -/
theorem decodeErrorsFollowTheCheckOrder : Obligations.DecodeErrorsFollowTheCheckOrder := by
  unfold Obligations.DecodeErrorsFollowTheCheckOrder
  intro d v
  refine ⟨decode_of_badOp, decode_of_reservedBits, decode_of_badAlg, fun hop hres halg => ?_⟩
  obtain ⟨i, hwf, rfl⟩ := exists_eq_printedWord hop hres halg
  exact ⟨i, decode_printedWord hwf, rfl⟩

/-! ### Illegal words -/

/-- A word of no existing command fails one of R92's checks (R88). -/
theorem decode_error_of_not_printed {d : Bool} {v : W32} (h : ∀ i : Instr, i.wf d = true → v ≠ printedWord i) :
    ∃ e : ErrCode, (e = .badOp ∨ e = .reservedBits ∨ e = .badAlg) ∧ decode d v = .error e := by
  by_cases hop : BadOp v
  · exact ⟨.badOp, .inl rfl, decode_of_badOp hop⟩
  by_cases hres : ReservedBits d v
  · exact ⟨.reservedBits, .inr (.inl rfl), decode_of_reservedBits hop hres⟩
  by_cases halg : BadAlg v
  · exact ⟨.badAlg, .inr (.inr rfl), decode_of_badAlg hop hres halg⟩
  obtain ⟨i, hwf, hv⟩ := exists_eq_printedWord hop hres halg
  exact absurd hv (h i hwf)

/-- A word that does not decode changes STATUS.ERR only. -/
theorem commandWrite_of_error {v : W32} {s : State} {e : ErrCode} (h : decode s.cfg.hasDiscard v = .error e) :
    commandWrite v s = .next (s.setErr e) := by
  rw [commandWrite, h]; rfl

/-- Settles O5: the word fails one of R92's checks, and an undecoded word only sets STATUS.ERR. FINAL.DISCARD's word is
illegal only without HAS_DISCARD, where its DISCARD bit is reserved. -/
theorem illegalWordChangesOnlyErr : Obligations.IllegalWordChangesOnlyErr := by
  unfold Obligations.IllegalWordChangesOnlyErr
  intro v s hillegal
  obtain ⟨e, he, hdec⟩ := decode_error_of_not_printed hillegal
  refine ⟨e, he, hdec, ?_, commandWrite_of_error hdec⟩
  rintro rfl
  have hd : s.cfg.hasDiscard = false := Bool.eq_false_iff.mpr fun hd => hillegal .finalDiscard hd rfl
  have hres : ReservedBits s.cfg.hasDiscard 0x83 := .inr (.inr (.inr ⟨rfl, rfl, hd⟩))
  rw [decode_of_reservedBits (by decide) hres] at hdec
  cases hdec
  rfl

end Sys2Proof
end

section
/-! O7: rotations. Each bit of `ROTR^k(x)` comes from exactly one of its two shifts (`getLsbD_rotr`). -/

namespace Sys2Proof.Machine

/-- R104's bit law: below `w - k` the bit comes from the right shift, from `w - k` on from the left shift. -/
theorem getLsbD_rotr {w k i : Nat} (x : BitVec w) (hk : k ≤ w) (hi : i < w) :
    (rotr k x).getLsbD i = x.getLsbD ((i + k) % w) := by
  rw [rotr, BitVec.getLsbD_or, BitVec.getLsbD_ushiftRight, BitVec.getLsbD_shiftLeft]
  by_cases hwrap : i + k < w
  · have hlow : i < w - k := by omega
    rw [Nat.mod_eq_of_lt hwrap, Nat.add_comm k i]
    simp [hlow]
  · have hmod : (i + k) % w = i - (w - k) := by
      rw [Nat.mod_eq_sub_mod (by omega), Nat.mod_eq_of_lt (by omega)]; omega
    have hhigh : ¬i < w - k := by omega
    have hout : x.getLsbD (k + i) = false := BitVec.getLsbD_of_ge x _ (by omega)
    simp [hmod, hi, hhigh, hout]

/-- R105: both are the same two shifts, in the other order. -/
theorem rotl_eq_rotr {w k : Nat} (x : BitVec w) (hk : k ≤ w) : rotl k x = rotr (w - k) x := by
  rw [rotl, rotr, Nat.sub_sub_self hk, BitVec.or_comm]

end Sys2Proof.Machine

namespace Sys2Proof
open Machine

/-- Settles O7: a rotated bit comes from exactly one of the two shifts, and ROTL's two shifts are those of ROTR by
`w - k`. -/
theorem rotationsMoveBits : Obligations.RotationsMoveBits := by
  unfold Obligations.RotationsMoveBits
  intro w k x _ hkw
  exact ⟨fun i hi => getLsbD_rotr x hkw.le hi, rotl_eq_rotr x hkw.le⟩

end Sys2Proof
end

section
/-! O55: the words of a block and the feed-forward. `BE_LOAD` is a positional sum (`beLoad_eq_sum`), and word i of a
block is `BE_LOAD` of its `w/8` bytes, which lose nothing modulo 2^w (`toNat_getElem_wordsOf`). -/

namespace Sys2Proof.Machine

/-- `BE_LOAD` weighs each byte by 256 to the number of bytes after it (R120). -/
theorem beLoad_eq_sum (s : List Byte) :
    beLoad s = ((List.range s.length).map fun j => (s.getD j 0).toNat * 256 ^ (s.length - 1 - j)).sum := by
  induction s using List.reverseRecOn with
  | nil => rfl
  | append_singleton s b ih =>
    have hshift : ∀ j ∈ List.range s.length, ((s ++ [b]).getD j 0).toNat * 256 ^ (s.length - j) =
        (s.getD j 0).toNat * 256 ^ (s.length - 1 - j) * 256 := by
      intro j hj
      have hj : j < s.length := List.mem_range.mp hj
      have hexp : s.length - j = s.length - 1 - j + 1 := by omega
      rw [List.getD_append _ _ _ _ hj, hexp, Nat.pow_succ, Nat.mul_assoc]
    rw [beLoad_snoc, ih, ← List.sum_map_mul_right, List.length_append, List.length_singleton, Nat.add_sub_cancel,
      List.range_succ, List.map_append, List.sum_append, List.map_congr_left hshift]
    simp

/-- Word i of a block, as an integer: `BE_LOAD` of its bytes (R122). -/
theorem toNat_getElem_wordsOf {w : Nat} (hw : 8 ∣ w) (blk : List Byte) (i : Fin 16) :
    (wordsOf w blk)[i].toNat = beLoad ((blk.drop (i * (w / 8))).take (w / 8)) := by
  have hfits : beLoad ((blk.drop (i * (w / 8))).take (w / 8)) < 2 ^ w := by
    calc beLoad ((blk.drop (i * (w / 8))).take (w / 8))
        < 256 ^ ((blk.drop (i * (w / 8))).take (w / 8)).length := beLoad_lt _
      _ ≤ 256 ^ (w / 8) := Nat.pow_le_pow_right (by decide) (List.length_take_le _ _)
      _ = 2 ^ w := by rw [show 256 = 2 ^ 8 from rfl, ← Nat.pow_mul, Nat.mul_div_cancel' hw]
  simp [wordsOf, Nat.mod_eq_of_lt hfits]

theorem length_take_drop_word {k : Nat} {blk : List Byte} (hlen : blk.length = 16 * k) (i : Fin 16) :
    ((blk.drop (i * k)).take k).length = k := by
  have hfit : i * k + k ≤ 16 * k := by
    rw [← Nat.succ_mul]; exact Nat.mul_le_mul_right k i.isLt
  rw [List.length_take, List.length_drop, hlen]
  omega

theorem getD_take_drop {k j : Nat} (n : Nat) (s : List Byte) (hj : j < k) :
    ((s.drop n).take k).getD j 0 = s.getD (n + j) 0 := by
  simp [List.getD_eq_getElem?_getD, List.getElem?_take_of_lt hj]

theorem toNat_getElem_feedForward {w n : Nat} (H x : Vector (BitVec w) n) (i : Fin n) :
    (feedForward H x)[i].toNat = (H[i].toNat + x[i].toNat) % 2 ^ w := by
  simp [feedForward]

end Sys2Proof.Machine

namespace Sys2Proof
open Machine

/-- Settles O55: a word is the positional sum of its bytes, read at their places in the block; the feed-forward is
`BitVec` addition in each word. -/
theorem blockWordsAndFeedForward : Obligations.BlockWordsAndFeedForward := by
  unfold Obligations.BlockWordsAndFeedForward
  refine ⟨fun w blk hw hlen i => ?_, fun w n H x i => toNat_getElem_feedForward H x i⟩
  have hbytes : 8 ∣ w := by omega
  rw [toNat_getElem_wordsOf hbytes, beLoad_eq_sum, length_take_drop_word hlen i]
  congr 1
  refine List.map_congr_left fun j hj => ?_
  rw [getD_take_drop _ _ (List.mem_range.mp hj)]

end Sys2Proof
end

section
/-! O11: the constants as roots of primes. A 64-bit constant is the fractional part of its root: with the root's integer
part above it, it is the whole root times 2^64 (`FractionOfRoot`). Each table is checked by computation against the
primes. -/

namespace Sys2Proof
open Machine

/-- The word `v` is the first 64 bits after the point of the e-th root of `p`, the root's integer part being less than 8:
this holds of the square and cube roots that R138 takes. -/
abbrev FractionOfRoot (e p : Nat) (v : W64) : Prop :=
  ∃ c < 8, IsFloorRoot e (c * 2 ^ 64 + v.toNat) (p * 2 ^ (64 * e))

/-- Modulo 2^64 only the fractional part of the root is left. -/
theorem FractionOfRoot.exists_floorRoot {e p : Nat} {v : W64} (h : FractionOfRoot e p v) :
    ∃ r, IsFloorRoot e r (p * 2 ^ (64 * e)) ∧ v = BitVec.ofNat 64 r := by
  obtain ⟨c, _, hroot⟩ := h
  have hmod : (c * 2 ^ 64 + v.toNat) % 2 ^ 64 = v.toNat := by
    rw [Nat.mul_add_mod', Nat.mod_eq_of_lt v.isLt]
  exact ⟨_, hroot, BitVec.eq_of_toNat_eq (by rw [BitVec.toNat_ofNat, hmod])⟩

/-- Computed once, by the kernel; the tables below are then checked against literals. -/
theorem firstPrimes_eq : firstPrimes =
    [2, 3, 5, 7, 11, 13, 17, 19, 23, 29, 31, 37, 41, 43, 47, 53, 59, 61, 67, 71, 73, 79, 83, 89, 97, 101, 103, 107, 109,
     113, 127, 131, 137, 139, 149, 151, 157, 163, 167, 173, 179, 181, 191, 193, 197, 199, 211, 223, 227, 229, 233, 239,
     241, 251, 257, 263, 269, 271, 277, 281, 283, 293, 307, 311, 313, 317, 331, 337, 347, 349, 353, 359, 367, 373, 379,
     383, 389, 397, 401, 409] := by
  decide +kernel

/-- K512 (R137): cube roots of the first 80 primes. -/
theorem k512_fractionOfRoot : ∀ t < 80, FractionOfRoot 3 (firstPrimes.getD t 0) (k512.getD t 0) := by
  rw [firstPrimes_eq]; decide

/-- K256 (R134): the high halves of K512's first 64 words. -/
theorem k256_eq_high_k512 : ∀ t < 64, k256.getD t 0 = BitVec.ofNat 32 ((k512.getD t 0).toNat / 2 ^ 32) := by
  decide

/-- IV_SHA512 (R136): square roots of the first 8 primes. -/
theorem ivSha512_fractionOfRoot : ∀ i : Fin 8, FractionOfRoot 2 (firstPrimes.getD i 0) ivSha512[i] := by
  rw [firstPrimes_eq]; decide

/-- IV_SHA384 (R135): square roots of the next 8 primes. -/
theorem ivSha384_fractionOfRoot : ∀ i : Fin 8, FractionOfRoot 2 (firstPrimes.getD (i + 8) 0) ivSha384[i] := by
  rw [firstPrimes_eq]; decide

/-- IV_SHA256 (R133): the high halves of IV_SHA512. -/
theorem ivSha256_eq_high_ivSha512 : ∀ i : Fin 8, ivSha256[i] = BitVec.ofNat 32 (ivSha512[i].toNat / 2 ^ 32) := by
  decide

/-- IV_SHA224 (R132): the low halves of IV_SHA384. -/
theorem ivSha224_eq_low_ivSha384 : ∀ i : Fin 8, ivSha224[i] = BitVec.ofNat 32 ivSha384[i].toNat := by
  decide

/-- K1 (R131): square roots of 2, 3, 5 and 10, times 2^30. -/
theorem k1_isFloorRoot : ∀ j < 4, IsFloorRoot 2 (k1.getD j 0).toNat ([2, 3, 5, 10].getD j 0 * 2 ^ 60) := by
  decide

/-- Settles O11: each 64-bit constant, with its root's integer part above it, is the whole root; the 32-bit tables are
halves of the 64-bit ones. -/
theorem constantsAreFractionalRoots : Obligations.ConstantsAreFractionalRoots := by
  unfold Obligations.ConstantsAreFractionalRoots
  refine ⟨?k512, k256_eq_high_k512, ?iv512, ?iv384, ivSha256_eq_high_ivSha512, ivSha224_eq_low_ivSha384, k1_isFloorRoot⟩
  case k512 => exact fun t ht => (k512_fractionOfRoot t ht).exists_floorRoot
  case iv512 => exact fun i => (ivSha512_fractionOfRoot i).exists_floorRoot
  case iv384 => exact fun i => (ivSha384_fractionOfRoot i).exists_floorRoot

end Sys2Proof
end

section
/-! O60: the recurrence on the circular buffer. Round t overwrites one slot only, so each word stays in the buffer for
sixteen rounds (`slot_circularAfter_add`); the slots that round t + 1 reads therefore hold the words 1 to 16 rounds back
(`slot_circularAfter_back`). -/

namespace Sys2Proof.Machine

/-- From round 16 on, E1 overwrites the round's own slot (R156). -/
theorem schedStep1_of_ge (W : W16 32) {t : Nat} (h : 16 ≤ t) :
    schedStep1 W t = W.put (t % 16) (rotl 1 (W.slot (t % 16 + 13) ^^^ W.slot (t % 16 + 8) ^^^ W.slot (t % 16 + 2) ^^^
      W.slot (t % 16))) :=
  if_neg (by omega)

/-- From round 16 on, E256 and E512 overwrite the round's own slot (R157). -/
theorem schedStep2_of_ge {w : Nat} (σ0 σ1 : BitVec w → BitVec w) (W : W16 w) {t : Nat} (h : 16 ≤ t) :
    schedStep2 σ0 σ1 W t = W.put (t % 16) (σ1 (W.slot (t % 16 + 14)) + W.slot (t % 16 + 9) +
      σ0 (W.slot (t % 16 + 1)) + W.slot (t % 16)) :=
  if_neg (by omega)

/-- Rounds 0 to 15 leave the buffer alone. -/
theorem schedStep_of_lt (f : Family) (W : W16 f.w) {t : Nat} (h : t < 16) : schedStep f W t = W := by
  cases f <;> exact if_pos h

/-- A round leaves every slot but its own alone. -/
theorem slot_schedStep_ne (f : Family) (W : W16 f.w) {t j : Nat} (h : t % 16 ≠ j % 16) :
    (schedStep f W t).slot j = W.slot j := by
  have hne : t % 16 % 16 ≠ j % 16 := by rwa [Nat.mod_mod]
  rcases Nat.lt_or_ge t 16 with hlt | hge
  · rw [schedStep_of_lt f W hlt]
  · cases f with
    | e1 => rw [schedStep, schedStep1_of_ge W hge, slot_put_ne W hne]
    | e256 => rw [schedStep, schedStep2_of_ge _ _ W hge, slot_put_ne W hne]
    | e512 => rw [schedStep, schedStep2_of_ge _ _ W hge, slot_put_ne W hne]

/-- A word stays in its slot for the fifteen rounds after its own. -/
theorem slot_circularAfter_add (f : Family) (M : W16 f.w) (t : Nat) {k : Nat} (hk : k < 16) :
    (circularAfter f M (t + k)).slot t = sched f M t := by
  induction k with
  | zero => rfl
  | succ k ih => rw [← Nat.add_assoc, circularAfter, slot_schedStep_ne f _ (by omega), ih (by omega)]

/-- Before round t + 1 the slot i past that round's own holds the word 16 - i rounds back (R155). -/
theorem slot_circularAfter_back (f : Family) (M : W16 f.w) {t : Nat} (ht : 16 ≤ t + 1) {i d : Nat} (hid : i + d = 16)
    (hd : 0 < d) : (circularAfter f M t).slot ((t + 1) % 16 + i) = sched f M (t + 1 - d) := by
  have hround : t + 1 - d + (d - 1) = t := by omega
  have hword := slot_circularAfter_add f M (t + 1 - d) (k := d - 1) (by omega)
  rw [hround] at hword
  rw [← hword]
  exact slot_eq _ (by omega)

/-- The first sixteen words are the block's (R150). -/
theorem sched_eq_getElem (f : Family) (M : W16 f.w) (t : Fin 16) : sched f M t = M[t] := by
  simp [sched, circularAfter_lt f M t t.isLt, W16.slot, Nat.mod_eq_of_lt t.isLt]

/-- E1's recurrence (R151) holds of the buffer's words in every round from 16 on. -/
theorem sched_e1 (M : W16 32) {t : Nat} (ht : 16 ≤ t) :
    sched .e1 M t = rotl 1 (sched .e1 M (t - 3) ^^^ sched .e1 M (t - 8) ^^^ sched .e1 M (t - 14) ^^^
      sched .e1 M (t - 16)) := by
  obtain ⟨t, rfl⟩ := Nat.exists_eq_add_one.mpr (show 0 < t by omega)
  have hback {i d : Nat} := slot_circularAfter_back .e1 M ht (i := i) (d := d)
  rw [← hback (i := 13) rfl (by decide), ← hback (i := 8) rfl (by decide), ← hback (i := 2) rfl (by decide),
    ← hback (i := 0) rfl (by decide)]
  rw [sched, circularAfter, schedStep, schedStep1_of_ge _ ht, slot_put_same _ (Nat.mod_mod _ _), Nat.add_zero (_ % _)]

/-- The recurrence of a family that updates the buffer by `schedStep2` (R152, R153) holds of the buffer's words in every
round from 16 on. -/
theorem sched_of_schedStep2 {f : Family} {σ0 σ1 : BitVec f.w → BitVec f.w} (hf : schedStep f = schedStep2 σ0 σ1)
    (M : W16 f.w) {t : Nat} (ht : 16 ≤ t) :
    sched f M t = σ1 (sched f M (t - 2)) + sched f M (t - 7) + σ0 (sched f M (t - 15)) + sched f M (t - 16) := by
  obtain ⟨t, rfl⟩ := Nat.exists_eq_add_one.mpr (show 0 < t by omega)
  have hback {i d : Nat} := slot_circularAfter_back f M ht (i := i) (d := d)
  rw [← hback (i := 14) rfl (by decide), ← hback (i := 9) rfl (by decide), ← hback (i := 1) rfl (by decide),
    ← hback (i := 0) rfl (by decide)]
  rw [sched, circularAfter, hf, schedStep2_of_ge _ _ _ ht, slot_put_same _ (Nat.mod_mod _ _), Nat.add_zero (_ % _)]

/-- A sum of four words is the integer sum modulo 2^w. -/
theorem toNat_add_four {w : Nat} (a b c d : BitVec w) :
    (a + b + c + d).toNat = (a.toNat + b.toNat + c.toNat + d.toNat) % 2 ^ w := by
  simp only [BitVec.toNat_add, Nat.mod_add_mod]

end Sys2Proof.Machine

namespace Sys2Proof
open Machine

/-- Settles O60: the buffer still holds the four words a round reads, so the slot it overwrites gets the recurrence's
word. -/
theorem scheduleFollowsTheRecurrence : Obligations.ScheduleFollowsTheRecurrence := by
  unfold Obligations.ScheduleFollowsTheRecurrence
  refine ⟨sched_eq_getElem, fun M t ht _ => sched_e1 M ht, fun M t ht _ => ?e256, fun M t ht _ => ?e512⟩
  case e256 => exact (congrArg BitVec.toNat (sched_of_schedStep2 (f := .e256) rfl M ht)).trans (toNat_add_four ..)
  case e512 => exact (congrArg BitVec.toNat (sched_of_schedStep2 (f := .e512) rfl M ht)).trans (toNat_add_four ..)

end Sys2Proof
end

section
/-! O14: one round. A chain of `BitVec` additions is the integer sum reduced once (`toNat_add_five`); E1's round function
and constant are read off by the range of t, and E256's and E512's two new words are stated once for every width. -/

namespace Sys2Proof.Machine

/-- A sum of five words is the integer sum modulo 2^w. -/
theorem toNat_add_five {w : Nat} (a b c d e : BitVec w) :
    (a + b + c + d + e).toNat = (a.toNat + b.toNat + c.toNat + d.toNat + e.toNat) % 2 ^ w := by
  rw [BitVec.toNat_add, toNat_add_four, Nat.mod_add_mod]

/-- R181 with its ranges as printed: each is closed at its last round. -/
theorem roundFunction1_eq (t : Nat) (b c d : W32) : roundFunction1 t b c d =
    if t ≤ 19 then ch b c d else if t ≤ 39 then parity b c d else if t ≤ 59 then maj b c d else parity b c d := by
  simp only [roundFunction1, Nat.lt_succ_iff]

/-- The constant of E1's round t, by R131's ranges. -/
theorem toNat_k1_getD_div {t : Nat} (ht : t < 80) : (k1.getD (t / 20) 0).toNat =
    if t ≤ 19 then 0x5A827999 else if t ≤ 39 then 0x6ED9EBA1 else if t ≤ 59 then 0x8F1BBCDC else 0xCA62C1D6 := by
  split_ifs
  · rw [show t / 20 = 0 by omega]; rfl
  · rw [show t / 20 = 1 by omega]; rfl
  · rw [show t / 20 = 2 by omega]; rfl
  · rw [show t / 20 = 3 by omega]; rfl

/-- E1's one new word (R180). -/
theorem toNat_roundStep1_a (r : Work5) (t : Nat) (Wt : W32) : (roundStep1 r t Wt).a.toNat =
    ((rotl 5 r.a).toNat + (roundFunction1 t r.b r.c r.d).toNat + r.e.toNat + (k1.getD (t / 20) 0).toNat + Wt.toNat) %
      2 ^ 32 :=
  toNat_add_five ..

section
variable {w : Nat} (S0 S1 : BitVec w → BitVec w) (r : Work8 w) (Kt Wt : BitVec w)

/-- The new `a` is `T1 + T2` (R190). -/
theorem toNat_roundStep2_a : (roundStep2 S0 S1 r Kt Wt).a.toNat =
    (r.h.toNat + (S1 r.e).toNat + (ch r.e r.f r.g).toNat + Kt.toNat + Wt.toNat +
      ((S0 r.a).toNat + (maj r.a r.b r.c).toNat)) % 2 ^ w := by
  rw [roundStep2, BitVec.toNat_add, toNat_add_five, BitVec.toNat_add, ← Nat.add_mod]

/-- The new `e` is `d + T1` (R190). -/
theorem toNat_roundStep2_e : (roundStep2 S0 S1 r Kt Wt).e.toNat =
    (r.d.toNat + (r.h.toNat + (S1 r.e).toNat + (ch r.e r.f r.g).toNat + Kt.toNat + Wt.toNat)) % 2 ^ w := by
  rw [roundStep2, BitVec.toNat_add, toNat_add_five, Nat.add_mod_mod]

end

end Sys2Proof.Machine

namespace Sys2Proof
open Machine

/-- Settles O14: the new words are sums of words, reduced once modulo 2^w; the other registers only move. -/
theorem roundsFollowTheEquations : Obligations.RoundsFollowTheEquations := by
  unfold Obligations.RoundsFollowTheEquations
  refine ⟨fun r t Wt ht => ⟨?e1, rfl, rfl, rfl, rfl⟩, fun r Kt Wt => ⟨?a256, ?e256, rfl, rfl, rfl, rfl, rfl, rfl⟩,
    fun r Kt Wt => ⟨?a512, ?e512, rfl, rfl, rfl, rfl, rfl, rfl⟩⟩
  case e1 => rw [toNat_roundStep1_a, roundFunction1_eq, toNat_k1_getD_div ht]
  case a256 => exact toNat_roundStep2_a ..
  case e256 => exact toNat_roundStep2_e ..
  case a512 => exact toNat_roundStep2_a ..
  case e512 => exact toNat_roundStep2_e ..

end Sys2Proof
end

section
/-! O15, O18, O21, O22: INIT and UPDATE. `exec` answers what `initCommand` and `execUpdate` do; each statement reads
UPDATE's outcome off the one of its checks that decides (`execUpdate_ok`, `execUpdate_tooLong`,
`execUpdate_notActive`). -/

namespace Sys2Proof.Machine

/-- A context and CCOUNT put in place and ERR set, as the statements write it (`withEngine`): nothing else changes. -/
theorem setErr_putHashing (alg : Alg) (x : Hashing alg.family) (e : ErrCode) (s : State) :
    (s.putHashing alg x).setErr e = withEngine s (.active alg x.act) x.ccount e := rfl

/-- The context a state already holds, put in place again, changes nothing. -/
theorem putHashing_self {s : State} {alg : Alg} {a : Active alg.family} (h : s.eng.ctx = .active alg a) :
    s.putHashing alg ⟨a, s.eng.ccount⟩ = s := by
  rw [State.putHashing, ← h]

/-- INIT's outcome, with its algorithm's initial value (R200). -/
theorem exec_initOf_eq_withEngine (alg : Alg) (s : State) :
    exec (.initOf alg) s = .next (withEngine s (.active alg ⟨iv alg, 0, []⟩) 0 .ok) := by
  rw [exec_initOf, initCommand_eq, setErr_putHashing, initStep]

/-- The printed word of a command that exists, written to CMD, runs that command (R41, R87). -/
theorem commandWrite_printedWord {i : Instr} {s : State} (h : i.wf s.cfg.hasDiscard = true) :
    commandWrite (printedWord i) s = exec i s := by
  rw [commandWrite, decode_printedWord h]

/-- INIT's words run INIT in every configuration. -/
theorem commandWrite_printedWord_initOf (alg : Alg) (s : State) :
    commandWrite (printedWord (.initOf alg)) s = exec (.initOf alg) s :=
  commandWrite_printedWord (wf_initOf _ alg)

/-- `InRange` is that no byte leaves the address space (R63). -/
theorem inRange_iff_not_leavesSpace (s : State) (a n : Nat) : inRange s.cfg a n = true ↔ ¬LeavesSpace s a n := by
  rw [← Bool.not_eq_false, inRange_false_iff]

@[simp] theorem readBytes_one (m : Memory) (a : Nat) : Memory.readBytes m a 1 = [Memory.read m a] := rfl

/-- `BC_ADD(k)` as an integer sum taken into the counter's width (R108). -/
theorem bcAdd_eq_ofNat (f : Family) (bc : BitVec f.LW) (k : Nat) : bcAdd f bc k = BitVec.ofNat f.LW (bc.toNat + k) := by
  apply BitVec.eq_of_toNat_eq
  rw [bcAdd_toNat, BitVec.toNat_ofNat]

/-- 2^LW as R209 prints it. -/
theorem two_pow_LW (alg : Alg) : 2 ^ alg.family.LW = if alg = .sha384 ∨ alg = .sha512 then 2 ^ 128 else 2 ^ 64 := by
  cases alg <;> rfl

/-- UPDATE of an in-range chunk that would bring the bit count to 2^LW (R209). -/
theorem execUpdate_tooLong {s : State} {alg : Alg} {a : Active alg.family} (h : s.eng.ctx = .active alg a)
    (hr : inRange s.cfg s.src s.len = true) (hl : 2 ^ alg.family.LW ≤ a.bc.toNat + 8 * s.len) :
    execUpdate s = .next (s.setErr .length) := by
  rw [execUpdate_active h, if_neg (by simp [hr]), if_pos ((tooLong_iff a s.len).mpr hl)]

end Sys2Proof.Machine

namespace Sys2Proof
open Machine

/-- Settles O15: INIT makes no check, so it completes in every state, and its printed word decodes to it in every
configuration. -/
theorem initLoadsAFreshContext : Obligations.InitLoadsAFreshContext := by
  unfold Obligations.InitLoadsAFreshContext
  have hinit := exec_initOf_eq_withEngine
  have hword := commandWrite_printedWord_initOf
  exact ⟨rfl, fun s => ⟨hinit .sha1 s, hinit .sha224 s, hinit .sha256 s, hinit .sha384 s, hinit .sha512 s,
    hword .sha1 s, hword .sha224 s, hword .sha256 s, hword .sha384 s, hword .sha512 s⟩⟩

/-- Settles O18: the checks pass, so UPDATE absorbs the one byte at SRC; whether that byte completes the block decides
between R205 alone and R206's compression. -/
theorem updateOfOneByte : Obligations.UpdateOfOneByte := by
  unfold Obligations.UpdateOfOneByte
  intro s alg a hctx harg1 hsrc hbc hplain b
  have hlen : s.len = 1 := by rw [State.len, harg1]; rfl
  have hrange : inRange s.cfg s.src s.len = true := by rw [inRange_iff, hlen]; exact .inr hsrc
  have hbytes : s.srcBytes = [b] := by rw [State.srcBytes, hlen, readBytes_one, State.src]
  rw [exec_update, execUpdate_ok hctx hrange (by rwa [hlen]) (by rwa [hlen]), hbytes, absorbAll_cons, absorbAll_nil,
    setErr_putHashing]
  split
  · next hfull => rw [absorb_full b hfull, bcAdd_eq_ofNat]
  · next hshort => rw [absorb_short b hshort, bcAdd_eq_ofNat]

/-- Settles O21: with LEN 0 every check on an ACTIVE context passes, and absorbing no byte puts the same context and
CCOUNT back; NOT_ACTIVE is checked before LEN is looked at. -/
theorem zeroLengthUpdate : Obligations.ZeroLengthUpdate := by
  unfold Obligations.ZeroLengthUpdate
  intro s harg1
  refine ⟨fun hactive => ?_, execUpdate_notActive⟩
  obtain ⟨alg, a, hctx⟩ := (phase_eq_one_iff _).mp hactive
  have hlen : s.len = 0 := by rw [State.len, harg1]; rfl
  have hbytes : s.srcBytes = [] := by rw [State.srcBytes, hlen]; rfl
  have hok := execUpdate_ok hctx (by rw [hlen, inRange_zero]) (by rw [hlen]; exact a.bc.isLt)
    (by rw [hlen, plainRange_zero])
  rw [hbytes, absorbAll_nil, putHashing_self hctx] at hok
  exact hok

/-- Settles O22: the chunk passes the RANGE check, and R209's printed bound is 2^LW. -/
theorem updateRefusesOverlongMessages : Obligations.UpdateRefusesOverlongMessages := by
  unfold Obligations.UpdateRefusesOverlongMessages
  intro s alg a hctx hspace hlong
  rw [← two_pow_LW] at hlong
  exact execUpdate_tooLong hctx ((inRange_iff_not_leavesSpace ..).mpr hspace) hlong

end Sys2Proof
end

section
/-! O54, O25, O26: finalization. A byte of the digest is a byte of one word of H: EXTRACT lays words of one length end to
end and keeps a prefix (`getElem?_extract`). FINAL on an unusable destination and FINAL.DISCARD only wipe and set ERR
(`setErr_wipe`). -/

namespace Sys2Proof.Machine

/-! ### The digest -/

/-- Byte j of `BE_STORE_k(v)` is the base-256 digit of `v` with `k - 1 - j` digits below it (R121). -/
theorem getElem?_beStore {k j : Nat} (v : Nat) (hj : j < k) :
    (beStore k v)[j]? = some (BitVec.ofNat 8 (v / 256 ^ (k - 1 - j))) := by
  simp [beStore, hj, Nat.shiftRight_eq_div_pow, Nat.pow_mul]

theorem DL_eq_printedDL (alg : Alg) : alg.DL = printedDL alg := by cases alg <;> rfl

/-- The digest is whole words (R8, R236). -/
theorem printedDL_mod_wordBytes (alg : Alg) : printedDL alg % (alg.family.w / 8) = 0 := by cases alg <;> rfl

/-- The chaining value has words for the whole digest (R8, R236). -/
theorem printedDL_le_chainingBytes (alg : Alg) : printedDL alg ≤ alg.family.n * (alg.family.w / 8) := by
  cases alg <;> decide

theorem wordBytes_pos (f : Family) : 0 < f.w / 8 := by cases f <;> decide

/-- A digest byte lies in a word of the chaining value. -/
theorem digestWord_lt {alg : Alg} {j : Nat} (hj : j < printedDL alg) : j / (alg.family.w / 8) < alg.family.n :=
  Nat.div_lt_of_lt_mul (Nat.mul_comm .. ▸ hj.trans_le (printedDL_le_chainingBytes alg))

/-- Byte j of the digest is byte `j mod (w/8)`, most significant first, of word `j div (w/8)` of H (R236). -/
theorem getElem?_extract {alg : Alg} (h : Vector (BitVec alg.family.w) alg.family.n) {j : Nat}
    (hj : j < printedDL alg) :
    (extract alg h)[j]? = some (BitVec.ofNat 8 ((h.toList.getD (j / (alg.family.w / 8)) 0).toNat /
      256 ^ (alg.family.w / 8 - 1 - j % (alg.family.w / 8)))) := by
  have hk := wordBytes_pos alg.family
  have hword : h.toList[j / (alg.family.w / 8)]? = some (h.toList.getD (j / (alg.family.w / 8)) 0) := by
    have hlt : j / (alg.family.w / 8) < h.toList.length := by rw [Vector.length_toList]; exact digestWord_lt hj
    rw [List.getD_eq_getElem _ _ hlt, List.getElem?_eq_getElem hlt]
  rw [extract, List.getElem?_take_of_lt (DL_eq_printedDL alg ▸ hj),
    getElem?_flatMap_uniform hk (fun x => length_beStore _ x.toNat) _ hword, getElem?_beStore _ (Nat.mod_lt _ hk)]

/-! ### The wipe -/

/-- A wipe and a result, as the statements write them (`withEngine`): nothing else changes. -/
theorem setErr_wipe (e : ErrCode) (s : State) :
    s.wipe.setErr e = withEngine s .finalized s.eng.ccount e := rfl

/-- FINAL on an ACTIVE context with an unusable destination (R239). -/
theorem execFinal_range {s : State} {alg : Alg} {a : Active alg.family} (h : s.eng.ctx = .active alg a)
    (hd : inRange s.cfg s.dst alg.DL = false) : execFinal s = .next (s.wipe.setErr .range) := by
  rw [execFinal_active h, if_pos hd]

end Sys2Proof.Machine

namespace Sys2Proof
open Machine

/-- Settles O54: DL, a whole number of words that H has, is read off per algorithm; each byte of that prefix is found in
its word. -/
theorem extractIsABigEndianPrefix : Obligations.ExtractIsABigEndianPrefix := by
  unfold Obligations.ExtractIsABigEndianPrefix
  intro alg h
  have hlength : (extract alg h).length = printedDL alg := by rw [length_extract, DL_eq_printedDL]
  exact ⟨hlength, printedDL_mod_wordBytes alg, fun j hj => ⟨digestWord_lt hj, getElem?_extract h hj⟩⟩

/-- Settles O25: the RANGE check comes before the padding, so FINAL only wipes. -/
theorem finalUnusableDestinationWipes : Obligations.FinalUnusableDestinationWipes := by
  unfold Obligations.FinalUnusableDestinationWipes
  intro s alg a hctx hleaves
  rw [exec_final, execFinal_range hctx ((inRange_false_iff ..).mpr hleaves), setErr_wipe]

/-- Settles O26: the context's shape decides between the wipe and NOT_ACTIVE; without HAS_DISCARD the word's DISCARD bit
is reserved, so it does not decode. -/
theorem discardWipesWithoutCompressing : Obligations.DiscardWipesWithoutCompressing := by
  unfold Obligations.DiscardWipesWithoutCompressing
  intro s
  refine ⟨fun hactive => ?_, execFinalDiscard_notActive, fun hd => ?_⟩
  · obtain ⟨alg, a, hctx⟩ := (phase_eq_one_iff _).mp hactive
    rw [exec_finalDiscard, execFinalDiscard_active hctx, setErr_wipe]
  · have hres : ReservedBits s.cfg.hasDiscard 0x83 := .inr (.inr (.inr ⟨rfl, rfl, hd⟩))
    exact commandWrite_of_error (decode_of_reservedBits (by decide) hres)

end Sys2Proof
end

section
/-! O31, O33: TOHEX. Its overlap test is that the two ranges meet (`overlaps_eq_rangesMeet`), and each of its outcomes is
read off the check that decides. The text is laid out in pairs, so byte `2i + d` of it is character d of source byte i
(`getElem?_hexText`), and the write puts that byte at `DST + 2i + d`. -/

namespace Sys2Proof.Machine

/-! ### The checks -/

/-- R262's overlap test is that the source and the text have a byte in common (R264). -/
theorem overlaps_eq_rangesMeet (src len dst : Nat) : overlaps src len dst = rangesMeet src len dst (2 * len) := by
  simp [overlaps, rangesMeet, Bool.and_assoc]

/-- A range outside the address space, whichever of the two it is (R264). -/
theorem execTohex_range {s : State} (h : inRange s.cfg s.src s.len = false ∨ inRange s.cfg s.dst (2 * s.len) = false) :
    execTohex s = .next (s.setErr .range) := by
  unfold execTohex
  split
  · rfl
  · next hs => rw [if_pos (h.resolve_left hs), raise_eq]

/-- Ranges in the address space that have a byte in common (R264). -/
theorem execTohex_overlap {s : State} (hs : inRange s.cfg s.src s.len = true)
    (hd : inRange s.cfg s.dst (2 * s.len) = true) (ho : overlaps s.src s.len s.dst = true) :
    execTohex s = .next (s.setErr .overlap) := by
  rw [execTohex, if_neg (by simp [hs]), if_neg (by simp [hd]), if_pos ho, raise_eq]

/-- TOHEX reports OVERLAP for no other reason than its overlap test. -/
theorem overlaps_of_execTohex {s : State} (h : execTohex s = .next (s.setErr .overlap)) :
    overlaps s.src s.len s.dst = true := by
  rcases execTohex_next h with ⟨-, ht⟩ | ⟨ho, -⟩ | ⟨-, -, -, -, -, ht⟩
  · cases congrArg (·.eng.err) ht
  · exact ho
  · cases congrArg (·.eng.err) ht

/-! ### The text -/

theorem hexChar_eq (v : BitVec 4) : hexChar v = hexDigits.getD v.toNat 0 := by
  revert v; decide

/-- The two characters of a byte, as R263's table has them. -/
theorem hexPair_eq (x : Byte) : hexPair x = [hexDigits.getD (x.toNat / 16) 0, hexDigits.getD (x.toNat % 16) 0] := by
  have hhigh : (x.extractLsb' 4 4).toNat = x.toNat / 16 := by
    rw [BitVec.extractLsb'_toNat, Nat.shiftRight_eq_div_pow]; omega
  have hlow : (x.extractLsb' 0 4).toNat = x.toNat % 16 := by
    rw [BitVec.extractLsb'_toNat, Nat.shiftRight_zero]
  rw [hexPair, hexChar_eq, hexChar_eq, hhigh, hlow]

/-- Byte `2i + d` of the text is character d of byte i. -/
theorem getElem?_hexText {bs : List Byte} {i d : Nat} {x : Byte} (hx : bs[i]? = some x) (hd : d < 2) :
    (hexText bs)[2 * i + d]? = (hexPair x)[d]? := by
  have hdiv : (2 * i + d) / 2 = i := by omega
  have hmod : (2 * i + d) % 2 = d := by omega
  rw [hexText, getElem?_flatMap_uniform (by decide) length_hexPair bs (hdiv.symm ▸ hx), hmod]

/-- Byte i of a written range, where byte i of the bytes written is known. -/
theorem read_writeBytes_of_getElem? {bs : List Byte} {m : Memory} (hm : Memory.wf m = true) (a : Nat) {i : Nat} {b : Byte}
    (h : bs[i]? = some b) : Memory.read (Memory.writeBytes m a bs) (a + i) = b := by
  obtain ⟨hi, rfl⟩ := List.getElem?_eq_some_iff.mp h
  exact read_writeBytes_inside bs hm a i hi

theorem getElem?_srcBytes {s : State} {i : Nat} (hi : i < s.len) :
    s.srcBytes[i]? = some (Memory.read s.mem (s.src + i)) := by
  rw [List.getElem?_eq_getElem (by rwa [length_srcBytes])]
  exact congrArg some (getElem_readBytes ..)

/-- After TOHEX, character d of source byte i stands at `DST + 2i + d` (R262, R263). -/
theorem read_afterTohex {s : State} (hm : Memory.wf s.mem = true) {i d : Nat} {c : Byte} (hi : i < s.len) (hd : d < 2)
    (hc : (hexPair (Memory.read s.mem (s.src + i)))[d]? = some c) :
    Memory.read (afterTohex s).mem (s.dst + (2 * i + d)) = c :=
  read_writeBytes_of_getElem? hm s.dst ((getElem?_hexText (getElem?_srcBytes hi) hd).trans hc)

theorem read_afterTohex_outside {s : State} {x : Nat} (h : x < s.dst ∨ s.dst + 2 * s.len ≤ x) :
    Memory.read (afterTohex s).mem x = Memory.read s.mem x :=
  read_writeBytes_outside _ _ _ _ (by rwa [length_hexText, length_srcBytes])

end Sys2Proof.Machine

namespace Sys2Proof
open Machine

/-- Settles O31: the checks pass, so TOHEX leaves `afterTohex s`; the nibbles of each source byte are read off its pair
of characters. -/
theorem tohexWritesLowercaseHex : Obligations.TohexWritesLowercaseHex := by
  unfold Obligations.TohexWritesLowercaseHex
  intro s hm src len dst hsrc hdst hdisjoint hplainSrc hplainDst
  have hoverlap : overlaps s.src s.len s.dst = false := by
    rw [← Bool.not_eq_true, overlaps_iff]
    change ¬(0 < len ∧ src < dst + 2 * len ∧ dst < src + len)
    omega
  refine ⟨afterTohex s, ?completes, rfl, fun i hi => ⟨?high, ?low⟩, fun x hx => read_afterTohex_outside hx⟩
  case completes =>
    rw [exec_tohex]
    exact execTohex_ok ((inRange_iff_not_leavesSpace ..).mpr hsrc) ((inRange_iff_not_leavesSpace ..).mpr hdst) hoverlap
      hplainSrc hplainDst
  case high => exact read_afterTohex hm (d := 0) hi (by decide) (by rw [hexPair_eq]; rfl)
  case low => exact read_afterTohex hm (d := 1) hi (by decide) (by rw [hexPair_eq]; rfl)

/-- Settles O33: both RANGE checks come first; with both passed, OVERLAP is reported exactly when R262's test holds, which
is that the ranges meet. -/
theorem tohexChecksItsRanges : Obligations.TohexChecksItsRanges := by
  unfold Obligations.TohexChecksItsRanges
  intro s src len dst
  refine ⟨fun hleaves => ?_, fun hsrc hdst => ?_⟩
  · exact execTohex_range (hleaves.imp (inRange_false_iff ..).mpr (inRange_false_iff ..).mpr)
  · rw [← rangesMeet_iff, ← overlaps_eq_rangesMeet]
    exact ⟨execTohex_overlap ((inRange_iff_not_leavesSpace ..).mpr hsrc) ((inRange_iff_not_leavesSpace ..).mpr hdst),
      overlaps_of_execTohex⟩

end Sys2Proof
end

section
/-! O35: refused commands. A command that reports an error only sets STATUS.ERR, but for FINAL on an ACTIVE context
(`exec_refused`); the word of FINAL is the only one that decodes to it (`eq_printedWord_of_decode`). -/

namespace Sys2Proof.Machine

/-- A word that decodes is the printed word of its command (R87). -/
theorem eq_printedWord_of_decode {d : Bool} {v : W32} {i : Instr} (h : decode d v = .ok i) : v = printedWord i := by
  by_contra hv
  have hnone : ∀ j : Instr, j.wf d = true → v ≠ printedWord j := by
    rintro j hj rfl
    rw [decode_printedWord hj] at h
    cases h
    exact hv rfl
  obtain ⟨e, -, he⟩ := decode_error_of_not_printed hnone
  rw [he] at h
  cases h

/-- ONESHOT makes every check before it changes anything (R261). -/
theorem oneshotCommand_refused {alg : Alg} {s t : State} (h : oneshotCommand alg s = .next t) (herr : t.eng.err ≠ .ok) :
    t = s.setErr t.eng.err := by
  rcases oneshotCommand_next h with ⟨-, rfl⟩ | ⟨-, rfl⟩ | ⟨-, -, -, -, -, rfl⟩
  · rfl
  · rfl
  · exact absurd rfl herr

/-- What a command that reports an error has done: FINAL on an ACTIVE context has found its destination unusable and
wiped (R239), and every other command has set STATUS.ERR (R310). -/
theorem exec_refused {i : Instr} {s t : State} (h : exec i s = .next t) (herr : t.eng.err ≠ .ok) :
    (i = .final ∧ s.eng.ctx.phase = 1) ∧ t = s.wipe.setErr .range ∨
      ¬(i = .final ∧ s.eng.ctx.phase = 1) ∧ t = s.setErr t.eng.err := by
  cases i with
  | initSha1 | initSha224 | initSha256 | initSha384 | initSha512 => cases h; exact absurd rfl herr
  | update =>
    rcases execUpdate_next h with ⟨-, rfl⟩ | ⟨alg, a, -, ⟨-, rfl⟩ | ⟨-, -, rfl⟩ | ⟨-, -, -, rfl⟩⟩
    · exact .inr ⟨nofun, rfl⟩
    · exact .inr ⟨nofun, rfl⟩
    · exact .inr ⟨nofun, rfl⟩
    · exact absurd rfl herr
  | final =>
    rcases execFinal_next h with ⟨hphase, rfl⟩ | ⟨alg, a, hctx, ⟨-, rfl⟩ | ⟨-, -, rfl⟩⟩
    · exact .inr ⟨fun hactive => hphase hactive.2, rfl⟩
    · exact .inl ⟨⟨rfl, (phase_eq_one_iff _).mpr ⟨alg, a, hctx⟩⟩, rfl⟩
    · exact absurd rfl herr
  | finalDiscard =>
    rcases execFinalDiscard_next h with ⟨-, rfl⟩ | ⟨-, rfl⟩
    · exact .inr ⟨nofun, rfl⟩
    · exact absurd rfl herr
  | oneshotSha1 | oneshotSha224 | oneshotSha256 | oneshotSha384 | oneshotSha512 =>
    exact .inr ⟨nofun, oneshotCommand_refused h herr⟩
  | tohex =>
    rcases execTohex_next h with ⟨-, rfl⟩ | ⟨-, rfl⟩ | ⟨-, -, -, -, -, rfl⟩
    · exact .inr ⟨nofun, rfl⟩
    · exact .inr ⟨nofun, rfl⟩
    · exact absurd rfl herr

end Sys2Proof.Machine

namespace Sys2Proof
open Machine

/-- Settles O35: FINAL's word runs FINAL, whose refusal on an ACTIVE context wipes; any other word fails to decode or
runs another command, and then only STATUS.ERR is set. -/
theorem refusedCommandChangesOnlyErr : Obligations.RefusedCommandChangesOnlyErr := by
  unfold Obligations.RefusedCommandChangesOnlyErr
  intro v s t h herr
  split
  · next hfinal =>
    obtain ⟨rfl, hphase⟩ := hfinal
    have hexec : exec .final s = .next t := (commandWrite_printedWord rfl).symm.trans h
    rcases exec_refused hexec herr with ⟨-, ht⟩ | ⟨hother, -⟩
    · rw [ht, setErr_wipe]
    · exact absurd ⟨rfl, hphase⟩ hother
  · next hother =>
    rcases commandWrite_next h with ⟨e, -, rfl⟩ | ⟨i, hdec, hexec⟩
    · rfl
    · rcases exec_refused hexec herr with ⟨⟨rfl, hphase⟩, -⟩ | ⟨-, ht⟩
      · exact absurd ⟨eq_printedWord_of_decode hdec, hphase⟩ hother
      · exact ht

end Sys2Proof
end

section
/-! O17, O19, O20: UPDATE's chunk. The context of a message stays one (`execUpdate_represents`); a chunk absorbed in two
parts is the chunk (`absorbAll_append`), so both R210's split and R207's block-wise procedure follow. -/

namespace Sys2Proof.Machine

/-- UPDATE on the context of the message M, its checks passed: the context of M and the chunk, CCOUNT by R211. -/
theorem execUpdate_represents {s : State} {alg : Alg} {M : List Byte} {a : Active alg.family}
    (hctx : s.eng.ctx = .active alg a) (hM : Represents alg M a) (hr : inRange s.cfg s.src s.len = true)
    (hl : 8 * (M.length + s.len) < 2 ^ alg.family.LW) (hp : plainRange s.cfg s.src s.len = true) :
    ∃ a', Represents alg (M ++ s.srcBytes) a' ∧ execUpdate s = .next (withEngine s (.active alg a')
      (s.eng.ccount + BitVec.ofNat 64 ((M.length % alg.family.B + s.len) / alg.family.B)) .ok) := by
  have hbuf : a.buf.length < alg.family.B := by rw [hM.length_buf]; exact Nat.mod_lt _ (B_pos _)
  have hbc : a.bc.toNat + 8 * s.len < 2 ^ alg.family.LW := by rw [hM.bc]; omega
  refine ⟨(absorbAll ⟨a, s.eng.ccount⟩ s.srcBytes).act, ?_, ?_⟩
  · exact Represents.absorbAll (x := ⟨a, s.eng.ccount⟩) hM s.srcBytes (by rwa [length_srcBytes])
  · rw [execUpdate_ok hctx hr hbc hp, setErr_putHashing, ccount_absorbAll _ _ hbuf, hM.length_buf, length_srcBytes]

/-- The counter after a chunk. -/
theorem bc_absorbAll {f : Family} (x : Hashing f) (m : List Byte) :
    (absorbAll x m).act.bc = bcAdd f x.act.bc (8 * m.length) := by
  induction m generalizing x with
  | nil => simp
  | cons b m ih =>
    have hbc : (absorb x b).act.bc = bcAdd f x.act.bc 8 := by
      by_cases h : x.act.buf.length + 1 = f.B
      · rw [absorb_full b h]
      · rw [absorb_short b h]
    rw [absorbAll_cons, ih, hbc, bcAdd_bcAdd, List.length_cons, Nat.mul_add, Nat.add_comm]

/-! ### Splitting a chunk -/

section withOperands
variable (s : State) (p l d : W64)
@[simp] theorem withOperands_cfg : (withOperands s p l d).cfg = s.cfg := rfl
@[simp] theorem withOperands_mem : (withOperands s p l d).mem = s.mem := rfl
@[simp] theorem withOperands_ctx : (withOperands s p l d).eng.ctx = s.eng.ctx := rfl
@[simp] theorem withOperands_ccount : (withOperands s p l d).eng.ccount = s.eng.ccount := rfl
@[simp] theorem withOperands_src : (withOperands s p l d).src = p.toNat := rfl
@[simp] theorem withOperands_len : (withOperands s p l d).len = l.toNat := rfl
@[simp] theorem withOperands_srcBytes :
    (withOperands s p l d).srcBytes = Memory.readBytes s.mem p.toNat l.toNat := rfl
end withOperands

/-- UPDATE of `l` usable bytes at `p`, the operands given as integers. -/
theorem exec_update_withOperands {s : State} {alg : Alg} {a : Active alg.family} {p l : Nat} (d : W64)
    (hctx : s.eng.ctx = .active alg a) (hp : p < 2 ^ 64) (hl : l < 2 ^ 64) (hr : p + l ≤ 2 ^ s.cfg.addrW)
    (hbc : a.bc.toNat + 8 * l < 2 ^ alg.family.LW) (hplain : plainRange s.cfg p l = true) :
    exec .update (withOperands s (BitVec.ofNat 64 p) (BitVec.ofNat 64 l) d) =
      .next (((withOperands s (BitVec.ofNat 64 p) (BitVec.ofNat 64 l) d).putHashing alg
        (absorbAll ⟨a, s.eng.ccount⟩ (Memory.readBytes s.mem p l))).setErr .ok) := by
  have hpn : (BitVec.ofNat 64 p).toNat = p := by rw [BitVec.toNat_ofNat, Nat.mod_eq_of_lt hp]
  have hln : (BitVec.ofNat 64 l).toNat = l := by rw [BitVec.toNat_ofNat, Nat.mod_eq_of_lt hl]
  have hok := execUpdate_ok (s := withOperands s (BitVec.ofNat 64 p) (BitVec.ofNat 64 l) d) hctx
    (by simp only [withOperands_cfg, withOperands_src, withOperands_len, hpn, hln]; exact (inRange_iff ..).mpr (.inr hr))
    (by simpa only [withOperands_len, hln] using hbc)
    (by simpa only [withOperands_cfg, withOperands_src, withOperands_len, hpn, hln] using hplain)
  rwa [withOperands_srcBytes, withOperands_ccount, hpn, hln] at hok

/-! ### The block-wise procedure -/

/-- From an empty buffer, R207's loop over whole blocks and its tail absorb the bytes in order. -/
theorem absorbBlocks_eq_absorbAll {f : Family} (fuel : Nat) {x : Hashing f} {m : List Byte} (hx : x.act.buf = [])
    (hm : m.length ≤ fuel) : absorbBlocks fuel x m = absorbAll x m := by
  have hB := B_pos f
  have htail {x : Hashing f} {m : List Byte} (hx : x.act.buf = []) (hm : m.length < f.B) :
      ({ x with act := { x.act with buf := m, bc := bcAdd f x.act.bc (8 * m.length) } } : Hashing f) = absorbAll x m := by
    rw [absorbAll_short (by rw [hx]; simpa using hm), hx, List.nil_append]
  induction fuel generalizing x m with
  | zero => exact htail hx (by omega)
  | succ fuel ih =>
    rw [absorbBlocks]
    split
    · next hle =>
      have hlen : (m.take f.B).length = f.B := List.length_take_of_le hle
      conv_rhs => rw [← List.take_append_drop f.B m]
      rw [absorbAll_append, absorbAll_fill (m := m.take f.B) (by rw [hx]; exact hB) (by simp [hx, hlen]), hlen, hx,
        List.nil_append, ← ih rfl (by rw [List.length_drop]; omega)]
      simp only [compressBlock, hx]
    · next hlt => exact htail hx (by omega)

section
variable {f : Family} {x : Hashing f} {m : List Byte} (hbuf : x.act.buf.length = x.act.used)
include hbuf

/-- A chunk that leaves the pending block incomplete only tops it up. -/
theorem absorbBlockwise_short (hpos : 0 < x.act.used) (hshort : x.act.used + m.length < f.B) :
    absorbBlockwise x m = absorbAll x m := by
  have hk : min (f.B - x.act.used) m.length = m.length := by omega
  have hlt : (x.act.buf ++ m).length < f.B := by rwa [List.length_append, hbuf]
  simp only [absorbBlockwise, if_pos hpos, hk, List.take_length, if_pos hlt]
  exact (absorbAll_short (by rwa [hbuf])).symm

/-- A chunk that completes the pending block has it compressed, and the rest goes through the loop. -/
theorem absorbBlockwise_fill (hpos : 0 < x.act.used) (hlt : x.act.used < f.B) (hfull : f.B ≤ x.act.used + m.length) :
    absorbBlockwise x m = absorbAll x m := by
  have hk : min (f.B - x.act.used) m.length = f.B - x.act.used := by omega
  have hlen : (m.take (f.B - x.act.used)).length = f.B - x.act.used := List.length_take_of_le (by omega)
  have hge : ¬(x.act.buf ++ m.take (f.B - x.act.used)).length < f.B := by rw [List.length_append, hbuf, hlen]; omega
  have hfill := absorbAll_fill (x := x) (m := m.take (f.B - x.act.used)) (by rwa [hbuf]) (by rw [hbuf, hlen]; omega)
  simp only [absorbBlockwise, if_pos hpos, hk, if_neg hge]
  rw [absorbBlocks_eq_absorbAll _ rfl (by rw [List.length_drop]; omega)]
  conv_rhs => rw [← List.take_append_drop (f.B - x.act.used) m, absorbAll_append, hfill, hlen]
  rfl

/-- With no pending bytes the loop takes the whole chunk. -/
theorem absorbBlockwise_empty (hzero : ¬0 < x.act.used) : absorbBlockwise x m = absorbAll x m := by
  rw [absorbBlockwise, if_neg hzero]
  exact absorbBlocks_eq_absorbAll _ (List.length_eq_zero_iff.mp (by omega)) le_rfl

end

end Sys2Proof.Machine

namespace Sys2Proof
open Machine

/-- Settles O17: the checks pass, and absorbing the chunk byte by byte keeps the context that of the bytes absorbed so
far. -/
theorem updateAbsorbsTheChunk : Obligations.UpdateAbsorbsTheChunk := by
  unfold Obligations.UpdateAbsorbsTheChunk
  intro s alg M a hctx hM hspace hshort hplain
  exact execUpdate_represents hctx hM ((inRange_iff_not_leavesSpace ..).mpr hspace) hshort hplain

/-- Settles O19: the second UPDATE finds the counter advanced by 8m, so it too completes, and the bytes it absorbs are the
rest of the range. -/
theorem updateSplitsAtAnyPoint : Obligations.UpdateSplitsAtAnyPoint := by
  unfold Obligations.UpdateSplitsAtAnyPoint
  intro s alg a p m n d hctx hpm hmn hspace hbc hplain upd
  have hbc1 : (absorbAll ⟨a, s.eng.ccount⟩ (Memory.readBytes s.mem p m)).act.bc.toNat = a.bc.toNat + 8 * m := by
    rw [bc_absorbAll, length_readBytes, bcAdd_toNat]
    exact Nat.mod_eq_of_lt (show a.bc.toNat + 8 * m < _ by omega)
  have hfirst := exec_update_withOperands (BitVec.ofNat 64 d) hctx (p := p) (l := m) (by omega) (by omega) (by omega)
    (by omega) (plainRange_mono hplain (by omega))
  have hwhole := exec_update_withOperands (BitVec.ofNat 64 d) hctx (p := p) (l := m + n) (by omega) hmn (by omega) hbc
    hplain
  refine ⟨_, _, _, hfirst, exec_update_withOperands _ rfl hpm (by omega) hspace (by rw [hbc1]; omega)
    (plainRange_mono hplain (by omega)), hwhole, ?ctx, ?ccount, rfl⟩
  case ctx =>
    rw [readBytes_add, absorbAll_append]; rfl
  case ccount =>
    rw [readBytes_add, absorbAll_append]; rfl

/-- Settles O20: topping up either leaves the chunk inside the pending block or completes it, and from the empty buffer
that remains the loop takes block after block. -/
theorem blockwiseUpdateAgrees : Obligations.BlockwiseUpdateAgrees := by
  unfold Obligations.BlockwiseUpdateAgrees
  intro f x m hbuf
  have hlt : x.act.used < f.B := Nat.mod_lt _ (B_pos f)
  by_cases hpos : 0 < x.act.used
  · rcases Nat.lt_or_ge (x.act.used + m.length) f.B with hshort | hfull
    · exact absorbBlockwise_short hbuf hpos hshort
    · exact absorbBlockwise_fill hbuf hpos hlt hfull
  · exact absorbBlockwise_empty hbuf hpos

end Sys2Proof
end

section
/-! O48, O47: the invariant. It speaks of host memory, of how many instances there are and of each one's context, so an
action that keeps the rest (`Local`) keeps it as soon as memory and the addressed context are sound
(`State.Sound.of_local`); `exec_ctx` and `exec_memory` say that of every command. -/

namespace Sys2Proof.Machine

theorem State.Sound.eng {s : State} (h : s.Sound) : s.eng.ctx.Sound := h.ctx _ ((mem_engines ..).mpr (.inl rfl))

/-- An action that changes nothing but the addressed instance, host memory and the host's side keeps the invariant if the
new memory and the new context are sound. -/
theorem State.Sound.of_local {s t : State} (h : s.Sound) (hlocal : Local s t) (hwf : Memory.wf t.mem = true)
    (hbound : ∀ c ∈ t.mem, c.1 < 2 ^ s.cfg.addrW) (hctx : t.eng.ctx.Sound) : t.Sound where
  memWf := hwf
  memBound := by rwa [hlocal.cfg]
  curLe := by rw [hlocal.cur, hlocal.parked]; exact h.curLe
  count := by rw [hlocal.parked, hlocal.cfg]; exact h.count
  ctx e he := by
    rcases (mem_engines ..).mp he with rfl | he
    · exact hctx
    · exact h.ctx e ((mem_engines ..).mpr (.inr (hlocal.parked ▸ he)))

/-- The invariant does not look at the queue. -/
theorem State.Sound.dequeue {s : State} (h : s.Sound) (q : List HostAction) : ({ s with queue := q } : State).Sound :=
  ⟨h.memWf, h.memBound, h.curLe, h.count, h.ctx⟩

/-- Addressing another instance keeps the invariant. -/
theorem State.Sound.select {k : Nat} {s t : State} (h : s.Sound) (ht : s.select k = some t) : t.Sound := by
  obtain ⟨-, hcur, hengines, heq⟩ := select_some h.curLe ht
  have hcfg : t.cfg = s.cfg := by rw [heq]
  have hmem : t.mem = s.mem := by rw [heq]
  have hlen : t.parked.length + 1 = s.parked.length + 1 := by rw [← length_engines, ← length_engines, hengines]
  exact ⟨by rw [hmem]; exact h.memWf, by rw [hmem, hcfg]; exact h.memBound, hcur, by rw [hlen, hcfg]; exact h.count,
    by rw [hengines]; exact h.ctx⟩

/-- A command keeps the addressed context that of some message: INIT's is that of the empty one, UPDATE's of the message
and the chunk (R37). -/
theorem exec_ctx_sound {i : Instr} {s t : State} (hs : s.eng.ctx.Sound) (h : exec i s = .next t) : t.eng.ctx.Sound := by
  rcases exec_ctx h with e | ⟨alg, -, e⟩ | ⟨alg, a, -, ha, hl, e⟩ | ⟨e, -⟩
  · rwa [e]
  · rw [e]; exact ⟨[], represents_init alg⟩
  · rw [ha] at hs
    obtain ⟨M, hM⟩ := hs
    rw [hM.bc] at hl
    rw [e]
    exact ⟨M ++ s.srcBytes, hM.absorbAll (x := ⟨a, s.eng.ccount⟩) s.srcBytes (by rw [length_srcBytes]; omega)⟩
  · rw [e]; trivial

theorem State.Sound.exec {i : Instr} {s t : State} (hs : s.Sound) (h : exec i s = .next t) : t.Sound :=
  have hmem := exec_memory hs.memWf hs.memBound h
  hs.of_local (exec_effect h).1.toLocal hmem.1 hmem.2 (exec_ctx_sound hs.eng h)

theorem State.Sound.commandWrite {v : W32} {s t : State} (hs : s.Sound) (h : commandWrite v s = .next t) : t.Sound := by
  rcases commandWrite_next h with ⟨e, -, rfl⟩ | ⟨i, -, h⟩
  · exact hs.of_local (changes_setErr e s).toLocal hs.memWf hs.memBound hs.eng
  · exact hs.exec h

theorem State.Sound.writeRegister {r : Register} {v : W64} {s t : State} (hs : s.Sound)
    (h : writeRegister r v s = .next t) : t.Sound := by
  cases r with
  | cmd => exact hs.commandWrite h
  | arg0 | arg1 | arg2 | status | ccount | reserved =>
    cases h; exact hs.of_local ⟨rfl, rfl, rfl, rfl⟩ hs.memWf hs.memBound hs.eng

/-- Free values at addresses that exist keep the invariant. -/
theorem State.Sound.scramble {s : State} (hs : s.Sound) {as : List Nat} (has : ∀ a ∈ as, a < 2 ^ s.cfg.addrW) :
    (s.scramble as).Sound := by
  refine hs.of_local (local_scramble as s) (wf_scramble as hs.memWf) (fun c hc => ?_) (by rw [scramble_eng]; exact hs.eng)
  rcases mem_scramble as hc with h | h
  · exact hs.memBound c h
  · exact has c.1 h

theorem State.Sound.resetEngine {s : State} (hs : s.Sound) : (resetEngine s).Sound :=
  hs.of_local ⟨rfl, rfl, rfl, rfl⟩ hs.memWf hs.memBound trivial

/-- The bytes that a reset during a command scrambles are those the command would have written, which exist. -/
theorem State.Sound.resetDuringCommand {v : W32} {s t : State} (hs : s.Sound) (h : resetDuringCommand v s = .next t) :
    t.Sound := by
  rcases resetDuringCommand_next h with rfl | ⟨i, u, -, hexec, hok, rfl⟩
  · exact hs.resetEngine
  · have hrange := (inRange_iff ..).mp (exec_inRange hexec hok)
    refine (hs.scramble fun a ha => ?_).resetEngine
    simp only [List.mem_map, List.mem_range, storeRange_fst] at ha
    omega

theorem State.Sound.racedCommand {v : W32} {as : List Nat} {s t : State} (hs : s.Sound)
    (h : racedCommand v as s = .next t) : t.Sound := by
  obtain ⟨has, -, u, hu, rfl⟩ := racedCommand_next h
  have hcfg : u.cfg = s.cfg := (commandWrite_changes hu).toLocal.cfg.trans (scramble_cfg as s)
  exact ((hs.scramble has).commandWrite hu).scramble (by rwa [hcfg])

theorem perform_memWrite (a : Nat) (b : Byte) (s : State) :
    perform (.memWrite a b) s = onHostByte a (fun t => { t with mem := Memory.write t.mem a b }) s := rfl

theorem perform_memRead (a : Nat) (s : State) :
    perform (.memRead a) s = onHostByte a (fun t => { t with rdata := some ((Memory.read t.mem a).setWidth 64) }) s := rfl

/-- Every host action keeps the invariant. -/
theorem State.Sound.perform {act : HostAction} {s t : State} (hs : s.Sound) (h : perform act s = .next t) : t.Sound := by
  cases act with
  | regWrite k off w v =>
    obtain ⟨u, hu, h⟩ := onInstance_next h
    obtain ⟨r, -, h⟩ := onRegister_next h
    exact (hs.select hu).writeRegister h
  | regRead k off w =>
    obtain ⟨u, hu, h⟩ := onInstance_next h
    obtain ⟨r, -, h⟩ := onRegister_next h
    cases h
    have hu := hs.select hu
    exact hu.of_local ⟨rfl, rfl, rfl, rfl⟩ hu.memWf hu.memBound hu.eng
  | check k off w f v =>
    obtain ⟨u, hu, h⟩ := onInstance_next h
    obtain ⟨r, -, h⟩ := onRegister_next h
    cases h
    have hu := hs.select hu
    exact hu.of_local ⟨rfl, rfl, rfl, rfl⟩ hu.memWf hu.memBound hu.eng
  | memWrite a b =>
    rw [perform_memWrite] at h
    obtain ⟨-, ha, -, rfl⟩ := onHostByte_next h
    refine hs.of_local ⟨rfl, rfl, rfl, rfl⟩ (wf_write hs.memWf a b) (fun c hc => ?_) hs.eng
    rcases mem_write hc with hc | ⟨rfl, -⟩
    · exact hs.memBound c hc
    · exact ha
  | memRead a =>
    rw [perform_memRead] at h
    obtain ⟨-, -, -, rfl⟩ := onHostByte_next h
    exact hs.of_local ⟨rfl, rfl, rfl, rfl⟩ hs.memWf hs.memBound hs.eng
  | reset k =>
    obtain ⟨u, hu, h⟩ := onInstance_next h
    cases h
    exact (hs.select hu).resetEngine
  | resetDuring k v =>
    obtain ⟨u, hu, h⟩ := onInstance_next h
    exact (hs.select hu).resetDuringCommand h
  | race k v as =>
    obtain ⟨u, hu, h⟩ := onInstance_next h
    exact (hs.select hu).racedCommand h

/-- Every step keeps the invariant. -/
theorem State.Sound.step {s t : State} (hs : s.Sound) (h : step s = .next t) : t.Sound := by
  rcases step_next h with ⟨-, rfl⟩ | ⟨act, rest, -, h⟩
  · exact hs
  · exact (hs.dequeue rest).perform h

/-- The invariant holds after reset: memory is empty and every context INVALID. -/
theorem sound_resetOf {c : Config} (hc : 1 ≤ c.nEngines) : (State.resetOf c).Sound where
  memWf := rfl
  memBound _ h := absurd h List.not_mem_nil
  curLe := Nat.zero_le _
  count := by simp only [State.resetOf, List.length_replicate]; omega
  ctx e he := by rw [eq_reset_of_mem_engines_resetOf he]; trivial

end Sys2Proof.Machine

namespace Sys2Proof
open Machine

/-- Settles O48: the invariant of a step, action by action. -/
theorem everyStepKeepsSoundness : Obligations.EveryStepKeepsSoundness := by
  unfold Obligations.EveryStepKeepsSoundness
  exact fun s t hs h => hs.step h

/-- Settles O47: the standard configuration has one instance. -/
theorem resetIsSound : Obligations.ResetIsSound := by
  unfold Obligations.ResetIsSound
  exact ⟨sound_resetOf (by decide), fun c hc => sound_resetOf hc⟩

end Sys2Proof
end

section
/-! O36, O37, O49, O50: what every command word is answered with, and proper runs. On plain memory each command is
answered (`exec_plain`), so a proper action performed in a sound state goes on (`perform_proper`); what is left of the
queue stays proper, and the invariant is kept by O48's lemmas. -/

namespace Sys2Proof.Machine

/-- No part of host memory has side effects, so the one refusal a command can give does not arise. -/
theorem exec_plain {s : State} (hplain : s.cfg.sideEffect = []) (i : Instr) : ∃ t, exec i s = .next t := by
  have hp (a n : Nat) : ¬plainRange s.cfg a n = false := by rw [plainRange_of_nil hplain]; decide
  have honeshot (alg : Alg) : ∃ t, oneshotCommand alg s = .next t := by
    simp only [oneshotCommand, if_neg (hp _ _)]
    split_ifs <;> exact ⟨_, rfl⟩
  cases i with
  | initSha1 | initSha224 | initSha256 | initSha384 | initSha512 => exact ⟨_, rfl⟩
  | update =>
    by_cases hphase : s.eng.ctx.phase = 1
    · obtain ⟨alg, a, hctx⟩ := (phase_eq_one_iff _).mp hphase
      rw [exec_update, execUpdate_active hctx, if_neg (hp _ _)]
      split_ifs <;> exact ⟨_, rfl⟩
    · exact ⟨_, execUpdate_notActive hphase⟩
  | final =>
    by_cases hphase : s.eng.ctx.phase = 1
    · obtain ⟨alg, a, hctx⟩ := (phase_eq_one_iff _).mp hphase
      rw [exec_final, execFinal_active hctx, if_neg (hp _ _)]
      split_ifs <;> exact ⟨_, rfl⟩
    · exact ⟨_, execFinal_notActive hphase⟩
  | finalDiscard =>
    by_cases hphase : s.eng.ctx.phase = 1
    · obtain ⟨alg, a, hctx⟩ := (phase_eq_one_iff _).mp hphase
      exact ⟨_, execFinalDiscard_active hctx⟩
    · exact ⟨_, execFinalDiscard_notActive hphase⟩
  | oneshotSha1 | oneshotSha224 | oneshotSha256 | oneshotSha384 | oneshotSha512 => exact honeshot _
  | tohex =>
    simp only [exec_tohex, execTohex, if_neg (hp _ _)]
    split_ifs <;> exact ⟨_, rfl⟩

theorem commandWrite_plain {s : State} (hplain : s.cfg.sideEffect = []) (v : W32) : ∃ t, commandWrite v s = .next t := by
  cases hdec : decode s.cfg.hasDiscard v with
  | error e => exact ⟨_, commandWrite_of_error hdec⟩
  | ok i =>
    obtain ⟨t, ht⟩ := exec_plain hplain i
    exact ⟨t, by rw [commandWrite, hdec]; exact ht⟩

theorem writeRegister_plain {s : State} (hplain : s.cfg.sideEffect = []) (r : Register) (v : W64) :
    ∃ t, writeRegister r v s = .next t := by
  cases r with
  | cmd => exact commandWrite_plain hplain _
  | arg0 | arg1 | arg2 | status | ccount | reserved => exact ⟨_, rfl⟩

theorem resetDuringCommand_plain {s : State} (hplain : s.cfg.sideEffect = []) (v : W32) :
    ∃ t, resetDuringCommand v s = .next t := by
  unfold resetDuringCommand
  split
  · exact ⟨_, rfl⟩
  · next i _ =>
    obtain ⟨t, ht⟩ := exec_plain hplain i
    rw [ht]
    dsimp only
    split_ifs <;> exact ⟨_, rfl⟩

theorem racedCommand_plain {s : State} (hplain : s.cfg.sideEffect = []) (v : W32) {as : List Nat}
    (has : ∀ a ∈ as, a < 2 ^ s.cfg.addrW) : ∃ t, racedCommand v as s = .next t := by
  obtain ⟨t, ht⟩ := commandWrite_plain (s := s.scramble as) (by rwa [scramble_cfg]) v
  refine ⟨t.scramble as, ?_⟩
  rw [racedCommand, if_pos (by simpa using has), if_pos (by simp [plainRange_of_nil hplain]), ht]

theorem onRegister_isSome {off : BitVec 6} {w : Nat} (h : (registerAt off w).isSome = true)
    (act : Register → State → Host.Outcome State Fault Refusal) (s : State) : ∃ r, onRegister off w act s = act r s := by
  obtain ⟨r, hr⟩ := Option.isSome_iff_exists.mp h
  exact ⟨r, by rw [onRegister, hr]⟩

/-- An action on an instance that exists goes on if the action does wherever the configuration is the same. -/
theorem onInstance_proper {k : Nat} {s : State} (hs : s.Sound) (hk : k < s.cfg.nEngines)
    {act : State → Host.Outcome State Fault Refusal} (hact : ∀ u : State, u.cfg = s.cfg → ∃ t, act u = .next t) :
    ∃ t, onInstance k act s = .next t := by
  obtain ⟨u, hu⟩ := select_isSome (s := s) (by rw [hs.count]; exact hk)
  obtain ⟨-, -, -, heq⟩ := select_some hs.curLe hu
  obtain ⟨t, ht⟩ := hact u (by rw [heq])
  exact ⟨t, by rw [onInstance, hu]; exact ht⟩

/-- On plain memory a proper host action goes on in every sound state. -/
theorem perform_proper {act : HostAction} {s : State} (hs : s.Sound) (hplain : s.cfg.sideEffect = [])
    (hact : proper s.cfg act = true) : ∃ t, perform act s = .next t := by
  cases act with
  | regWrite k off w v =>
    simp only [proper, Bool.and_eq_true, decide_eq_true_eq] at hact
    refine onInstance_proper hs hact.1 fun u hu => ?_
    obtain ⟨r, hr⟩ := onRegister_isSome hact.2 (fun r t => writeRegister r v t) u
    rw [hr]
    exact writeRegister_plain (by rwa [hu]) r v
  | regRead k off w =>
    simp only [proper, Bool.and_eq_true, decide_eq_true_eq] at hact
    refine onInstance_proper hs hact.1 fun u _ => ?_
    obtain ⟨r, hr⟩ := onRegister_isSome hact.2 (fun r t => .next { t with rdata := some (readRegister r t.eng) }) u
    exact ⟨_, hr⟩
  | check k off w f v =>
    simp only [proper, Bool.and_eq_true, decide_eq_true_eq] at hact
    refine onInstance_proper hs hact.1 fun u _ => ?_
    obtain ⟨r, hr⟩ := onRegister_isSome hact.2 (fun r t => .next (checkRegister f v r t)) u
    exact ⟨_, hr⟩
  | memWrite a b =>
    simp only [proper, Bool.and_eq_true, Bool.not_eq_true', decide_eq_true_eq] at hact
    rw [perform_memWrite]
    exact ⟨_, onHostByte_plain hact.1 hact.2 (plainRange_of_nil hplain a 1)⟩
  | memRead a =>
    simp only [proper, Bool.and_eq_true, Bool.not_eq_true', decide_eq_true_eq] at hact
    rw [perform_memRead]
    exact ⟨_, onHostByte_plain hact.1 hact.2 (plainRange_of_nil hplain a 1)⟩
  | reset k =>
    simp only [proper, decide_eq_true_eq] at hact
    exact onInstance_proper hs hact fun u _ => ⟨_, rfl⟩
  | resetDuring k v =>
    simp only [proper, decide_eq_true_eq] at hact
    exact onInstance_proper hs hact fun u hu => resetDuringCommand_plain (by rwa [hu]) v
  | race k v as =>
    simp only [proper, Bool.and_eq_true, decide_eq_true_eq, List.all_eq_true] at hact
    exact onInstance_proper hs hact.1 fun u hu => racedCommand_plain (by rwa [hu]) v (by rw [hu]; exact hact.2)

/-- No action changes the configuration or the rest of the queue. -/
theorem perform_cfg_queue {act : HostAction} {s t : State} (hs : s.cur ≤ s.parked.length) (h : perform act s = .next t) :
    t.cfg = s.cfg ∧ t.queue = s.queue := by
  rcases perform_next h with ⟨-, hlocal, -⟩ | ⟨k, u, -, hu, hlocal⟩
  · exact ⟨hlocal.cfg, hlocal.queue⟩
  · obtain ⟨-, -, -, heq⟩ := select_some hs hu
    exact ⟨hlocal.cfg.trans (by rw [heq]), hlocal.queue.trans (by rw [heq])⟩

theorem step_idle {s : State} (h : s.queue = []) : step s = .next s := by
  rw [step, h]

theorem step_of_queue {s : State} {act : HostAction} {rest : List HostAction} (h : s.queue = act :: rest) :
    step s = perform act { s with queue := rest } := by
  rw [step, h]

/-- From a sound state with plain memory and proper actions queued, a step goes on to another such state. -/
theorem step_proper {s : State} (hs : s.Sound) (hplain : s.cfg.sideEffect = [])
    (hq : ∀ act ∈ s.queue, proper s.cfg act = true) :
    ∃ t, step s = .next t ∧ t.cfg.sideEffect = [] ∧ ∀ act ∈ t.queue, proper t.cfg act = true := by
  cases hqueue : s.queue with
  | nil => exact ⟨s, step_idle hqueue, hplain, hq⟩
  | cons act rest =>
    rw [hqueue] at hq
    obtain ⟨hact, hrest⟩ := List.forall_mem_cons.mp hq
    obtain ⟨t, ht⟩ := perform_proper (hs.dequeue rest) hplain hact
    obtain ⟨hcfg, hqueue'⟩ := perform_cfg_queue (hs.dequeue rest).curLe ht
    refine ⟨t, (step_of_queue hqueue).trans ht, by rw [hcfg]; exact hplain, ?_⟩
    rw [hcfg, hqueue']
    exact hrest

end Sys2Proof.Machine

namespace Sys2Proof
open Machine

/-- Settles O36: a word that does not decode sets ERR, and a command on plain memory completes or reports an error. -/
theorem everyCommandWordIsAnswered : Obligations.EveryCommandWordIsAnswered := by
  unfold Obligations.EveryCommandWordIsAnswered
  exact fun v s hplain => commandWrite_plain hplain v

/-- Settles O37: what a command can change (`Changes`) is what the statement leaves free. -/
theorem commandsKeepOperandsAndOtherInstances : Obligations.CommandsKeepOperandsAndOtherInstances := by
  unfold Obligations.CommandsKeepOperandsAndOtherInstances
  exact fun v s t h => commandWrite_changes h

/-- Settles O49, by induction on the number of steps: a step goes on, and leaves a sound state whose queue is what was
left of it. -/
theorem properRunsNeverStop : Obligations.ProperRunsNeverStop := by
  unfold Obligations.ProperRunsNeverStop
  intro n
  induction n with
  | zero => exact fun s _ _ _ => ⟨s, rfl⟩
  | succ n ih =>
    intro s hs hplain hq
    obtain ⟨t, ht, hplain', hq'⟩ := step_proper hs hplain hq
    obtain ⟨u, hu⟩ := ih t (hs.step ht) hplain' hq'
    exact ⟨u, (run_succ ht).trans hu⟩

/-- Settles O50: an empty queue gives the step nothing to perform. -/
theorem idleEngineKeepsItsState : Obligations.IdleEngineKeepsItsState := by
  unfold Obligations.IdleEngineKeepsItsState
  exact fun s => step_idle

end Sys2Proof
end

section
/-! O2, O4, O1: the decoder and the encoder. A word decodes to a command only if it is the command's printed word
(`eq_printedWord_of_decode`) and the command exists (`wf_of_decode_printedWord`); the encoder gives the printed words. -/

namespace Sys2Proof
open Machine

/-- Of the printed words, only FINAL.DISCARD's depends on HAS_DISCARD (R88). -/
theorem wf_of_decode_printedWord {d : Bool} {i : Instr} : decode d (printedWord i) = .ok i → i.wf d = true := by
  revert d; cases i <;> decide

theorem decode_eq_ok_iff (d : Bool) (v : W32) (i : Instr) : decode d v = .ok i ↔ v = printedWord i ∧ i.wf d = true := by
  constructor
  · intro h
    obtain rfl := eq_printedWord_of_decode h
    exact ⟨rfl, wf_of_decode_printedWord h⟩
  · rintro ⟨rfl, hwf⟩
    exact decode_printedWord hwf

theorem encode_eq_printedWord (i : Instr) : encode i = printedWord i := by cases i <;> rfl

/-- Settles O2: only the printed word of a command decodes to it, and it does exactly where the command exists. -/
theorem decoderReadsExactlyTheTableWords : Obligations.DecoderReadsExactlyTheTableWords := by
  unfold Obligations.DecoderReadsExactlyTheTableWords
  exact decode_eq_ok_iff

/-- Settles O4: the encoder gives the printed word, which the decoder reads back. -/
theorem decodeInvertsEncode : Obligations.DecodeInvertsEncode := by
  unfold Obligations.DecodeInvertsEncode
  intro d i
  rw [encode_eq_printedWord]
  exact ⟨rfl, decode_printedWord⟩

/-- Settles O1: with HAS_DISCARD every command exists, so each printed word decodes to its command. -/
theorem tableWordsDecode : Obligations.TableWordsDecode := by
  unfold Obligations.TableWordsDecode
  have hword (i : Instr) : decode true (printedWord i) = .ok i := decode_printedWord (by cases i <;> rfl)
  exact ⟨hword .initSha1, hword .initSha224, hword .initSha256, hword .initSha384, hword .initSha512, hword .update,
    hword .final, hword .finalDiscard, hword .oneshotSha1, hword .oneshotSha224, hword .oneshotSha256,
    hword .oneshotSha384, hword .oneshotSha512, hword .tohex⟩

end Sys2Proof
end

section
/-! O8, O9: the boolean and sigma functions by bits. A sigma function is the XOR of two rotations and of a third rotation
or a shift, so its bits are those of `getLsbD_rotr` and `getLsbD_shr`. -/

namespace Sys2Proof.Machine

theorem getLsbD_ch {w i : Nat} (x y z : BitVec w) (hi : i < w) :
    (ch x y z).getLsbD i = if x.getLsbD i then y.getLsbD i else z.getLsbD i := by
  simp only [ch, BitVec.getLsbD_xor, BitVec.getLsbD_and, BitVec.getLsbD_not, hi, decide_true, Bool.true_and]
  cases x.getLsbD i <;> simp

theorem getLsbD_maj {w : Nat} (x y z : BitVec w) (i : Nat) : (maj x y z).getLsbD i =
    decide (2 ≤ (x.getLsbD i).toNat + (y.getLsbD i).toNat + (z.getLsbD i).toNat) := by
  simp only [maj, BitVec.getLsbD_xor, BitVec.getLsbD_and]
  generalize x.getLsbD i = a, y.getLsbD i = b, z.getLsbD i = c
  revert a b c; decide

theorem getLsbD_parity (x y z : W32) (i : Nat) : (parity x y z).getLsbD i =
    decide (((x.getLsbD i).toNat + (y.getLsbD i).toNat + (z.getLsbD i).toNat) % 2 = 1) := by
  simp only [parity, BitVec.getLsbD_xor]
  generalize x.getLsbD i = a, y.getLsbD i = b, z.getLsbD i = c
  revert a b c; decide

/-- R106 by bits: a shifted bit is 0 where its index leaves the word. -/
theorem getLsbD_shr {w : Nat} (k : Nat) (x : BitVec w) (i : Nat) :
    (shr k x).getLsbD i = (decide (i + k < w) && x.getLsbD (i + k)) := by
  rw [shr, BitVec.getLsbD_ushiftRight, Nat.add_comm k i]
  by_cases h : i + k < w
  · simp [h]
  · simp [h, BitVec.getLsbD_of_ge x (i + k) (by omega)]

section
variable {w i j k l : Nat} (x : BitVec w) (hj : j ≤ w) (hk : k ≤ w) (hi : i < w)
include hj hk hi

/-- A bit of a Σ function. -/
theorem getLsbD_xor_rotr (hl : l ≤ w) : (rotr j x ^^^ rotr k x ^^^ rotr l x).getLsbD i =
    ((x.getLsbD ((i + j) % w) ^^ x.getLsbD ((i + k) % w)) ^^ x.getLsbD ((i + l) % w)) := by
  rw [BitVec.getLsbD_xor, BitVec.getLsbD_xor, getLsbD_rotr x hj hi, getLsbD_rotr x hk hi, getLsbD_rotr x hl hi]

/-- A bit of a σ function. -/
theorem getLsbD_xor_rotr_shr (l : Nat) : (rotr j x ^^^ rotr k x ^^^ shr l x).getLsbD i =
    ((x.getLsbD ((i + j) % w) ^^ x.getLsbD ((i + k) % w)) ^^ (decide (i + l < w) && x.getLsbD (i + l))) := by
  rw [BitVec.getLsbD_xor, BitVec.getLsbD_xor, getLsbD_rotr x hj hi, getLsbD_rotr x hk hi, getLsbD_shr]

end

end Sys2Proof.Machine

namespace Sys2Proof
open Machine

/-- Settles O8: each function is a boolean function of the three bits at its position. -/
theorem booleanFunctionsByBit : Obligations.BooleanFunctionsByBit := by
  unfold Obligations.BooleanFunctionsByBit
  exact ⟨fun w x y z i hi => ⟨getLsbD_ch x y z hi, getLsbD_maj x y z i⟩, fun x y z i _ => getLsbD_parity x y z i⟩

/-- Settles O9: R112 to R119's amounts are below the width, so each function's bits are those of its three terms. -/
theorem sigmaFunctionsByBit : Obligations.SigmaFunctionsByBit := by
  unfold Obligations.SigmaFunctionsByBit
  have hbig {w i j k l : Nat} (x : BitVec w) := getLsbD_xor_rotr (i := i) (j := j) (k := k) (l := l) x
  have hsmall {w i j k : Nat} (x : BitVec w) := getLsbD_xor_rotr_shr (i := i) (j := j) (k := k) x
  intro rot3 rot2shift
  constructor
  · intro x i hi
    exact ⟨hbig x (by decide) (by decide) hi (by decide), hbig x (by decide) (by decide) hi (by decide),
      hsmall x (by decide) (by decide) hi 3, hsmall x (by decide) (by decide) hi 10⟩
  · intro x i hi
    exact ⟨hbig x (by decide) (by decide) hi (by decide), hbig x (by decide) (by decide) hi (by decide),
      hsmall x (by decide) (by decide) hi 7, hsmall x (by decide) (by decide) hi 6⟩

end Sys2Proof
end

section
/-! O10, O32, O28: byte strings. `BE_STORE` splits off its last byte as `BE_LOAD` takes one in (`beStore_succ`,
`beLoad_snoc`); a byte's two hex characters stand at its nibbles' places in the table (`idxOf_hexDigits`); the zeros of
the padding are the least residue (`padZeros_le`). -/

namespace Sys2Proof.Machine

/-- The last byte of `BE_STORE` is the lowest, and the bytes before it are those of the rest of the integer (R121). -/
theorem beStore_succ (k v : Nat) : beStore (k + 1) v = beStore k (v / 256) ++ [BitVec.ofNat 8 v] := by
  simp only [beStore, List.range_succ, List.map_append, List.map_singleton]
  congr 1
  · refine List.map_congr_left fun i hi => ?_
    have hi : i < k := List.mem_range.mp hi
    have hexp : 8 * (k + 1 - 1 - i) = 8 + 8 * (k - 1 - i) := by omega
    rw [hexp, Nat.shiftRight_add, Nat.shiftRight_eq_div_pow v 8]
  · simp

theorem beLoad_beStore (k : Nat) {v : Nat} (hv : v < 2 ^ (8 * k)) : beLoad (beStore k v) = v := by
  induction k generalizing v with
  | zero => simp_all [beStore, beLoad]
  | succ k ih =>
    have hrest : v / 256 < 2 ^ (8 * k) := Nat.div_lt_of_lt_mul (by rwa [Nat.mul_succ, Nat.add_comm, Nat.pow_add] at hv)
    rw [beStore_succ, beLoad_snoc, ih hrest, BitVec.toNat_ofNat]
    exact Nat.div_add_mod' v 256

theorem beStore_beLoad (s : List Byte) : beStore s.length (beLoad s) = s := by
  induction s using List.reverseRecOn with
  | nil => rfl
  | append_singleton s b ih =>
    have hdiv : (beLoad s * 256 + b.toNat) / 256 = beLoad s := by have := b.isLt; omega
    have hlast : BitVec.ofNat 8 (beLoad s * 256 + b.toNat) = b :=
      BitVec.eq_of_toNat_eq (by rw [BitVec.toNat_ofNat]; have := b.isLt; omega)
    rw [List.length_append, List.length_singleton, beLoad_snoc, beStore_succ, hdiv, ih, hlast]

/-- A hex character stands in R263's table at its nibble's place. -/
theorem idxOf_hexDigits : ∀ n < 16, hexDigits.idxOf (hexDigits.getD n 0) = n := by decide

/-- R263's table holds digits and the letters a to f. -/
theorem mem_hexDigits : ∀ n < 16, (0x30 ≤ (hexDigits.getD n 0).toNat ∧ (hexDigits.getD n 0).toNat ≤ 0x39) ∨
    (0x61 ≤ (hexDigits.getD n 0).toNat ∧ (hexDigits.getD n 0).toNat ≤ 0x66) := by decide

/-- Decoding a byte's pair of characters gives the byte. -/
theorem unhex_hexPair_append (x : Byte) (cs : List Byte) : unhex (hexPair x ++ cs) = x :: unhex cs := by
  have hhigh : x.toNat / 16 < 16 := by have := x.isLt; omega
  have hbyte : 16 * (x.toNat / 16) + x.toNat % 16 = x.toNat := Nat.div_add_mod x.toNat 16
  rw [hexPair_eq]
  show BitVec.ofNat 8 (16 * _ + _) :: unhex cs = _
  rw [idxOf_hexDigits _ hhigh, idxOf_hexDigits _ (Nat.mod_lt _ (by decide)), hbyte, BitVec.ofNat_toNat,
    BitVec.setWidth_eq]

/-- R242's z is the least number of zero bytes that fills whole blocks. -/
theorem padZeros_le {f : Family} {N z : Nat} (h : (N + 1 + z + f.L) % f.B = 0) : padZeros f N ≤ z := by
  unfold padZeros
  cases f <;> simp only [Family.B, Family.L] at h ⊢ <;> omega

theorem B_eq_printedB (f : Family) : f.B = printedB f := by cases f <;> rfl

theorem L_eq_printedL (f : Family) : f.L = printedL f := by cases f <;> rfl

end Sys2Proof.Machine

namespace Sys2Proof
open Machine

/-- Settles O10: both round trips by induction on the bytes, the last byte being the lowest. -/
theorem bigEndianRoundTrips : Obligations.BigEndianRoundTrips := by
  unfold Obligations.BigEndianRoundTrips
  exact ⟨fun k v => ⟨length_beStore k v, fun j hj => getElem?_beStore v hj⟩, fun k v hv => beLoad_beStore k hv,
    beStore_beLoad⟩

/-- Settles O32: a pair of characters comes from R263's table and decodes to its byte. -/
theorem hexTextRoundTrips : Obligations.HexTextRoundTrips := by
  unfold Obligations.HexTextRoundTrips
  refine fun bs => ⟨length_hexText bs, fun c hc => ?alphabet, ?decoded⟩
  case alphabet =>
    obtain ⟨x, -, hc⟩ := List.mem_flatMap.mp hc
    rw [hexPair_eq, List.mem_pair] at hc
    rcases hc with rfl | rfl
    · exact mem_hexDigits _ (by have := x.isLt; omega)
    · exact mem_hexDigits _ (Nat.mod_lt _ (by decide))
  case decoded =>
    induction bs with
    | nil => rfl
    | cons x bs ih => rw [hexText_cons, unhex_hexPair_append, ih]

/-- Settles O28: `padZeros` fills whole blocks (`padZeros_spec`), and is the least number that does. -/
theorem paddingFillsWholeBlocks : Obligations.PaddingFillsWholeBlocks := by
  unfold Obligations.PaddingFillsWholeBlocks
  intro f B L
  refine ⟨B_eq_printedB f, L_eq_printedL f, fun M => ⟨padZeros f M.length, ?_⟩⟩
  have hfill := (padZeros_spec f M.length).1
  simp only [B, L, ← B_eq_printedB, ← L_eq_printedL]
  exact ⟨rfl, hfill, by rw [length_pad]; exact hfill, fun z' => padZeros_le⟩

end Sys2Proof
end

section
/-! O12, O13: the eager schedule. `eagerWord` follows the same recurrence as the circular buffer's words (`sched_e1`,
`sched_of_schedStep2`), and starts from the same sixteen. -/

namespace Sys2Proof.Machine

/-- A word of the full-size table, read off any shorter table that has it. -/
theorem eagerWord_eq_tableWord {f : Family} (M : W16 f.w) {k t : Nat} (hk : k ≤ f.rounds - 16) (ht : t < 16 + k) :
    eagerWord f M t = tableWord (eagerTable f M k) t := by
  obtain ⟨j, hj⟩ := Nat.exists_eq_add_of_le hk
  rw [eagerWord, hj, eagerTable_old f M k j t ht]

theorem tableWord_eagerTable_zero (f : Family) (M : W16 f.w) (t : Fin 16) : tableWord (eagerTable f M 0) t = M[t] := by
  simp [tableWord, eagerTable]

/-- The recurrence applied to a table of the buffer's words gives the buffer's next word (R151 to R153). -/
theorem sched_eq_eagerNext {f : Family} {M : W16 f.w} {k : Nat}
    (h : ∀ t < 16 + k, sched f M t = tableWord (eagerTable f M k) t) :
    sched f M (16 + k) = eagerNext f (eagerTable f M k) := by
  have hge : 16 ≤ 16 + k := Nat.le_add_right 16 k
  have hlen : (eagerTable f M k).length = 16 + k := length_eagerTable f M k
  cases f with
  | e1 =>
    simp only [eagerNext, hlen]
    rw [sched_e1 M hge, h _ (by omega), h _ (by omega), h _ (by omega), h _ (by omega)]
  | e256 =>
    simp only [eagerNext, hlen]
    rw [sched_of_schedStep2 (f := .e256) rfl M hge, h _ (by omega), h _ (by omega), h _ (by omega), h _ (by omega)]
  | e512 =>
    simp only [eagerNext, hlen]
    rw [sched_of_schedStep2 (f := .e512) rfl M hge, h _ (by omega), h _ (by omega), h _ (by omega), h _ (by omega)]

/-- The words of a table of 16 + k words are the buffer's. -/
theorem sched_eq_tableWord (f : Family) (M : W16 f.w) (k : Nat) :
    ∀ t < 16 + k, sched f M t = tableWord (eagerTable f M k) t := by
  induction k with
  | zero =>
    intro t ht
    exact (sched_eq_getElem f M ⟨t, ht⟩).trans (tableWord_eagerTable_zero f M ⟨t, ht⟩).symm
  | succ k ih =>
    intro t ht
    by_cases hlt : t < 16 + k
    · rw [ih t hlt, eagerTable_old f M k 1 t hlt]
    · obtain rfl : t = 16 + k := by omega
      rw [eagerTable_new, sched_eq_eagerNext ih]

theorem sixteen_le_rounds (f : Family) : 16 ≤ f.rounds := by cases f <;> decide

/-- In every round of its family the buffer yields the eager table's word (R155). -/
theorem sched_eq_eagerWord (f : Family) (M : W16 f.w) {t : Nat} (ht : t < f.rounds) : sched f M t = eagerWord f M t :=
  sched_eq_tableWord f M _ t (by have := sixteen_le_rounds f; omega)

/-- The registers that a family's rounds leave, folded over the eager words. -/
theorem runRounds_eager {ω : Type} (f : Family) (round : ω → Nat → BitVec f.w → ω) (M : W16 f.w) (r : ω) :
    (runRounds (schedStep f) round M r f.rounds).2 =
      (List.range f.rounds).foldl (fun r t => round r t (eagerWord f M t)) r := by
  have hfold : (runRounds (schedStep f) round M r f.rounds).2 =
      (List.range f.rounds).foldl (fun r t => round r t (sched f M t)) r := by
    obtain ⟨R, hR⟩ := Nat.exists_eq_add_one.mpr (Nat.lt_of_lt_of_le (by decide : 0 < 16) (sixteen_le_rounds f))
    rw [hR, runRounds_succ]
  rw [hfold]
  exact foldl_range_congr _ _ _ (fun r t ht => by rw [sched_eq_eagerWord f M ht]) r

end Sys2Proof.Machine

namespace Sys2Proof
open Machine

/-- Settles O12: both forms start from the block's words and follow the family's recurrence. -/
theorem circularScheduleEqualsEager : Obligations.CircularScheduleEqualsEager := by
  unfold Obligations.CircularScheduleEqualsEager
  exact fun f M t ht => sched_eq_eagerWord f M ht

/-- Settles O13: the rounds read the buffer's words only, and these are the eager ones. -/
theorem compressionMatchesEagerSchedule : Obligations.CompressionMatchesEagerSchedule := by
  unfold Obligations.CompressionMatchesEagerSchedule
  refine ⟨fun H blk => ?_, fun H blk => ?_, fun H blk => ?_⟩
  · exact congrArg (fun r => feedForward H (Work5.toVector r)) (runRounds_eager .e1 _ (wordsOf 32 blk) _)
  · exact congrArg (fun r => feedForward H (Work8.toVector r)) (runRounds_eager .e256 _ (wordsOf 32 blk) _)
  · exact congrArg (fun r => feedForward H (Work8.toVector r)) (runRounds_eager .e512 _ (wordsOf 64 blk) _)

end Sys2Proof
end

section
/-! O23, O24, O27, O29, O30: FINAL and ONESHOT. Both end in `deliverDigest`, which on the context of a message writes that
message's hash (`deliverDigest_represents`); the number of its compressions depends on `used` alone
(`ccount_padAndCompress`). -/

namespace Sys2Proof.Machine

/-- Delivering the digest of the context of the message M (R230 to R238, R243). -/
theorem deliverDigest_represents {alg : Alg} {M : List Byte} {x : Hashing alg.family} (h : Represents alg M x.act)
    (s : State) : deliverDigest alg x s =
      { withEngine s .finalized
        (x.ccount + if M.length % alg.family.B ≤ alg.family.B - alg.family.L - 1 then 1 else 2) .ok with
        mem := Memory.writeBytes s.mem s.dst (hash alg M) } := by
  obtain ⟨hh, hcc⟩ := padAndCompress_represents h
  rw [hash, ← hh, ← hcc]
  rfl

/-- One compression where the 0x80 byte and the length field fit the pending block (R235). -/
theorem ccount_padAndCompress_fits {f : Family} {x : Hashing f} (h : x.act.used + 1 ≤ f.B - f.L) :
    (padAndCompress x).ccount = x.ccount + 1 := by
  rw [padAndCompress, if_pos h]; rfl

/-- Two where they do not. -/
theorem ccount_padAndCompress_overflows {f : Family} {x : Hashing f} (h : ¬x.act.used + 1 ≤ f.B - f.L) :
    (padAndCompress x).ccount = x.ccount + 2 := by
  rw [padAndCompress, if_neg h]
  exact BitVec.add_assoc x.ccount 1 1

/-- B and L by algorithm, as R8 prints them. -/
theorem B_eq_ite (alg : Alg) : alg.family.B = if alg = .sha384 ∨ alg = .sha512 then 128 else 64 := by cases alg <;> rfl

theorem L_eq_ite (alg : Alg) : alg.family.L = if alg = .sha384 ∨ alg = .sha512 then 16 else 8 := by cases alg <;> rfl

/-- A ONESHOT's chunk on the fresh context: the context of the chunk, and its whole blocks counted (R211, R260). -/
theorem absorbAll_initStep_represents {alg : Alg} {m : List Byte} (hm : 8 * m.length < 2 ^ alg.family.LW) :
    Represents alg m (absorbAll (initStep alg) m).act ∧
      (absorbAll (initStep alg) m).ccount = BitVec.ofNat 64 (m.length / alg.family.B) := by
  constructor
  · exact (represents_init alg).absorbAll m (by rwa [List.length_nil, Nat.zero_add])
  · rw [ccount_absorbAll (initStep alg) m (B_pos _)]
    simp [initStep]

/-- The message bytes of ONESHOT, read before anything is written (R65). -/
theorem oneshotCommand_delivers {s : State} {alg : Alg} (hs : inRange s.cfg s.src s.len = true)
    (hd : inRange s.cfg s.dst alg.DL = true) (hl : 8 * s.len < 2 ^ alg.family.LW)
    (hps : plainRange s.cfg s.src s.len = true) (hpd : plainRange s.cfg s.dst alg.DL = true) :
    oneshotCommand alg s = .next
      { withEngine s .finalized (BitVec.ofNat 64 (s.len / alg.family.B +
        if s.len % alg.family.B ≤ alg.family.B - alg.family.L - 1 then 1 else 2)) .ok with
        mem := Memory.writeBytes s.mem s.dst (hash alg s.srcBytes) } := by
  obtain ⟨hM, hcc⟩ := absorbAll_initStep_represents (alg := alg) (m := s.srcBytes) (by rwa [length_srcBytes])
  rw [oneshotCommand_ok hs hd hl hps hpd, deliverDigest_represents hM, hcc, length_srcBytes, BitVec.ofNat_add]
  split <;> rfl

theorem eq_of_mem_finalizing {i : Instr} (hi : i ∈ finalizing) :
    i = .final ∨ i = .finalDiscard ∨ ∃ alg, i = .oneshotOf alg := by
  simp only [finalizing, List.mem_cons, List.not_mem_nil, or_false] at hi
  rcases hi with rfl | rfl | rfl | rfl | rfl | rfl | rfl
  exacts [.inl rfl, .inr (.inl rfl), .inr (.inr ⟨.sha1, rfl⟩), .inr (.inr ⟨.sha224, rfl⟩), .inr (.inr ⟨.sha256, rfl⟩),
    .inr (.inr ⟨.sha384, rfl⟩), .inr (.inr ⟨.sha512, rfl⟩)]

/-- A finalizing command that reports OK leaves the context in the FINALIZED shape. -/
theorem exec_finalizing_ok {i : Instr} {s t : State} (hi : i ∈ finalizing) (h : exec i s = .next t)
    (hok : t.eng.err = .ok) : t.eng.ctx = .finalized := by
  rcases eq_of_mem_finalizing hi with rfl | rfl | ⟨alg, rfl⟩
  · rcases execFinal_next h with ⟨-, rfl⟩ | ⟨alg, a, -, ⟨-, rfl⟩ | ⟨-, -, rfl⟩⟩
    · cases hok
    · rfl
    · rfl
  · rcases execFinalDiscard_next h with ⟨-, rfl⟩ | ⟨-, rfl⟩
    · cases hok
    · rfl
  · rw [exec_oneshotOf] at h
    rcases oneshotCommand_next h with ⟨-, rfl⟩ | ⟨-, rfl⟩ | ⟨-, -, -, -, -, rfl⟩
    · cases hok
    · cases hok
    · rfl

/-- UPDATE, FINAL and FINAL.DISCARD require an ACTIVE context (60_exceptions.md R305). -/
theorem exec_notActive {i : Instr} {s : State} (hi : i ∈ [Instr.update, Instr.final, Instr.finalDiscard])
    (h : s.eng.ctx.phase ≠ 1) : exec i s = .next (s.setErr .notActive) := by
  simp only [List.mem_cons, List.not_mem_nil, or_false] at hi
  rcases hi with rfl | rfl | rfl
  · exact execUpdate_notActive h
  · exact execFinal_notActive h
  · exact execFinalDiscard_notActive h

section finalizedContext
@[simp] theorem algCode_finalized : Ctx.finalized.algCode = 0 := rfl
@[simp] theorem hWord_finalized (i : Nat) : Ctx.finalized.hWord i = 0 := rfl
@[simp] theorem bcValue_finalized : Ctx.finalized.bcValue = 0 := rfl
@[simp] theorem pending_finalized : Ctx.finalized.pending = [] := rfl
end finalizedContext

end Sys2Proof.Machine

namespace Sys2Proof
open Machine

/-- Settles O23: the checks pass, and the digest delivered is that of the represented message. -/
theorem finalDeliversTheHash : Obligations.FinalDeliversTheHash := by
  unfold Obligations.FinalDeliversTheHash
  intro s alg M a hctx hM hspace hplain
  rw [exec_final, execFinal_ok hctx ((inRange_iff_not_leavesSpace ..).mpr hspace) hplain,
    deliverDigest_represents (x := ⟨a, s.eng.ccount⟩) hM]
  rfl

/-- Settles O24: whether the padding fits the pending block is R235's printed bound on `used`, by the algorithm's B and
L. -/
theorem finalCountsOneOrTwoCompressions : Obligations.FinalCountsOneOrTwoCompressions := by
  unfold Obligations.FinalCountsOneOrTwoCompressions
  intro s alg a hctx hspace hplain wide
  have hused : a.used = a.bc.toNat / 8 % alg.family.B := rfl
  have hone (h : a.used + 1 ≤ alg.family.B - alg.family.L) := ccount_padAndCompress_fits (x := ⟨a, s.eng.ccount⟩) h
  have htwo (h : ¬a.used + 1 ≤ alg.family.B - alg.family.L) := ccount_padAndCompress_overflows (x := ⟨a, s.eng.ccount⟩) h
  rw [hused, B_eq_ite, L_eq_ite] at hone htwo
  refine ⟨_, execFinal_ok hctx ((inRange_iff_not_leavesSpace ..).mpr hspace) hplain, fun hw h => hone ?_,
    fun hw h => htwo ?_, fun hw h => hone ?_, fun hw h => htwo ?_⟩
  · rw [if_neg hw, if_neg hw]; omega
  · rw [if_neg hw, if_neg hw]; omega
  · rw [if_pos hw, if_pos hw]; omega
  · rw [if_pos hw, if_pos hw]; omega

/-- Settles O27: the command has left the FINALIZED shape, which holds nothing and is not ACTIVE. -/
theorem wipeLeavesNothingAndClosesTheContext : Obligations.WipeLeavesNothingAndClosesTheContext := by
  unfold Obligations.WipeLeavesNothingAndClosesTheContext
  intro s t i hi h hok
  have hctx := exec_finalizing_ok hi h hok
  have hclosed : t.eng.ctx.phase ≠ 1 := by rw [hctx]; decide
  refine ⟨by simp [hctx], by simp [hctx], by simp [hctx], by simp [hctx], by simp [hctx], fun j hj => ?_⟩
  exact exec_notActive hj hclosed

/-- Settles O29: with the checks passed, ONESHOT delivers the digest of the context that INIT and UPDATE would leave. -/
theorem oneshotDeliversTheHash : Obligations.OneshotDeliversTheHash := by
  unfold Obligations.OneshotDeliversTheHash
  intro s alg hsrc hdst hlen hps hpd N B
  exact (exec_oneshotOf alg s).trans (oneshotCommand_delivers ((inRange_iff_not_leavesSpace ..).mpr hsrc)
    ((inRange_iff_not_leavesSpace ..).mpr hdst) hlen hps hpd)

/-- Settles O30: a ONESHOT that reports OK has passed the checks of UPDATE and FINAL, and the digest it delivers is that of
the context UPDATE leaves. -/
theorem oneshotEqualsInitUpdateFinal : Obligations.OneshotEqualsInitUpdateFinal := by
  unfold Obligations.OneshotEqualsInitUpdateFinal
  intro s t alg h hok
  rw [exec_oneshotOf] at h
  rcases oneshotCommand_next h with ⟨-, rfl⟩ | ⟨-, rfl⟩ | ⟨hs, hd, hl, hps, hpd, rfl⟩
  · cases hok
  · cases hok
  · have hroom : (initStep alg).act.bc.toNat + 8 * s.len < 2 ^ alg.family.LW := by simpa [initStep] using hl
    have hupdate := execUpdate_ok (s := (s.putHashing alg (initStep alg)).setErr .ok) rfl hs hroom hps
    have hfinal := execFinal_ok
      (s := (s.putHashing alg (absorbAll (initStep alg) s.srcBytes)).setErr .ok) rfl hd hpd
    exact ⟨_, _, (exec_initOf alg s).trans (initCommand_eq alg s), hupdate, hfinal⟩

end Sys2Proof
end

section
/-! O34, O53, O16: which check decides. One lemma per outcome of a command's chain of checks; `MeetsDevice` is that a
range is not plain (`plainRange_eq_false_iff`). -/

namespace Sys2Proof.Machine

/-! ### Errors -/

theorem execUpdate_range {s : State} {alg : Alg} {a : Active alg.family} (h : s.eng.ctx = .active alg a)
    (hr : inRange s.cfg s.src s.len = false) : execUpdate s = .next (s.setErr .range) := by
  rw [execUpdate_active h, if_pos hr]

/-- A range outside the address space, whichever of the two it is (R260). -/
theorem oneshotCommand_range {s : State} {alg : Alg}
    (h : inRange s.cfg s.src s.len = false ∨ inRange s.cfg s.dst alg.DL = false) :
    oneshotCommand alg s = .next (s.setErr .range) := by
  unfold oneshotCommand
  split
  · rfl
  · next hs => rw [if_pos (h.resolve_left hs), raise_eq]

/-- The overlong message, which R260's check refuses (assumption log 16). -/
theorem oneshotCommand_tooLong {s : State} {alg : Alg} (hs : inRange s.cfg s.src s.len = true)
    (hd : inRange s.cfg s.dst alg.DL = true) (hl : 2 ^ alg.family.LW ≤ 8 * s.len) :
    oneshotCommand alg s = .next (s.setErr .length) := by
  rw [oneshotCommand, if_neg (by simp [hs]), if_neg (by simp [hd]), if_pos hl, raise_eq]

/-! ### Memory with side effects -/

/-- A range that is not plain meets a device (R72). -/
theorem plainRange_eq_false_iff (s : State) (a n : Nat) : plainRange s.cfg a n = false ↔ MeetsDevice s a n := by
  rw [← Bool.not_eq_true, plainRange_iff]
  push Not
  exact ⟨fun ⟨r, hr, x, h1, h2, h3⟩ => ⟨x, h1, h2, r, hr, h3⟩, fun ⟨x, h1, h2, r, hr, h3⟩ => ⟨r, hr, x, h1, h2, h3⟩⟩

theorem execUpdate_device {s : State} {alg : Alg} {a : Active alg.family} (h : s.eng.ctx = .active alg a)
    (hr : inRange s.cfg s.src s.len = true) (hl : a.bc.toNat + 8 * s.len < 2 ^ alg.family.LW)
    (hp : plainRange s.cfg s.src s.len = false) : execUpdate s = .refused .sideEffectMemory := by
  rw [execUpdate_active h, if_neg (by simp [hr]), if_neg (by rw [tooLong_iff]; omega), if_pos hp]

theorem execFinal_device {s : State} {alg : Alg} {a : Active alg.family} (h : s.eng.ctx = .active alg a)
    (hr : inRange s.cfg s.dst alg.DL = true) (hp : plainRange s.cfg s.dst alg.DL = false) :
    execFinal s = .refused .sideEffectMemory := by
  rw [execFinal_active h, if_neg (by simp [hr]), if_pos hp]

theorem oneshotCommand_device {s : State} {alg : Alg} (hs : inRange s.cfg s.src s.len = true)
    (hd : inRange s.cfg s.dst alg.DL = true) (hl : 8 * s.len < 2 ^ alg.family.LW)
    (hp : plainRange s.cfg s.src s.len = false ∨ plainRange s.cfg s.dst alg.DL = false) :
    oneshotCommand alg s = .refused .sideEffectMemory := by
  rw [oneshotCommand, if_neg (by simp [hs]), if_neg (by simp [hd]), if_neg (by omega)]
  split
  · rfl
  · next hps => rw [if_pos (hp.resolve_left hps)]

/-- TOHEX's ranges, one wholly below the other (R262). -/
theorem overlaps_eq_false {src len dst : Nat} (h : src + len ≤ dst ∨ dst + 2 * len ≤ src) :
    overlaps src len dst = false := by
  rw [← Bool.not_eq_true, overlaps_iff]
  omega

theorem execTohex_device {s : State} (hs : inRange s.cfg s.src s.len = true)
    (hd : inRange s.cfg s.dst (2 * s.len) = true) (ho : overlaps s.src s.len s.dst = false)
    (hp : plainRange s.cfg s.src s.len = false ∨ plainRange s.cfg s.dst (2 * s.len) = false) :
    execTohex s = .refused .sideEffectMemory := by
  rw [execTohex, if_neg (by simp [hs]), if_neg (by simp [hd]), if_neg (by simp [ho])]
  split
  · rfl
  · next hps => rw [if_pos (hp.resolve_left hps)]

/-- The host's own byte access to a device (assumption log 9). -/
theorem onHostByte_device {a : Nat} {act : State → State} {s : State} (hr : inRegisterBlock s.cfg a = false)
    (ha : a < 2 ^ s.cfg.addrW) (hp : plainRange s.cfg a 1 = false) :
    onHostByte a act s = .refused .sideEffectMemory := by
  simp [onHostByte, hr, ha, hp]

/-- A race on a device (assumption log 9). -/
theorem racedCommand_device {v : W32} {a : Nat} {s : State} (ha : a < 2 ^ s.cfg.addrW)
    (hp : plainRange s.cfg a 1 = false) : racedCommand v [a] s = .refused .sideEffectMemory := by
  rw [racedCommand, if_pos (by simp [ha]), if_neg (by simp [hp])]

theorem perform_race_cur (v : W32) (as : List Nat) (s : State) : perform (.race s.cur v as) s = racedCommand v as s :=
  onInstance_cur (racedCommand v as) s

/-- INIT does not look at the context, CCOUNT or ERR (R202). -/
theorem initCommand_withEngine (alg : Alg) (s : State) (c : Ctx) (cc : W64) (e : ErrCode) :
    initCommand alg (withEngine s c cc e) = initCommand alg s := rfl

theorem exists_eq_initOf {i : Instr} (hi : i ∈ initializing) : ∃ alg, i = .initOf alg := by
  simp only [initializing, List.mem_cons, List.not_mem_nil, or_false] at hi
  rcases hi with rfl | rfl | rfl | rfl | rfl
  exacts [⟨.sha1, rfl⟩, ⟨.sha224, rfl⟩, ⟨.sha256, rfl⟩, ⟨.sha384, rfl⟩, ⟨.sha512, rfl⟩]

end Sys2Proof.Machine

namespace Sys2Proof
open Machine

/-- Settles O34: each printed word runs its command, whose checks are made in the order of the statement. -/
theorem errorsFollowThePriority : Obligations.ErrorsFollowThePriority := by
  unfold Obligations.ErrorsFollowThePriority
  intro s err src len dst
  have reports {i : Instr} {e : ErrCode} (hwf : i.wf s.cfg.hasDiscard = true) (h : exec i s = .next (s.setErr e)) :
      err (printedWord i) e := ⟨_, (commandWrite_printedWord hwf).trans h, rfl⟩
  have oneshotReports {alg : Alg} {e : ErrCode} (h : oneshotCommand alg s = .next (s.setErr e)) :
      err (encode (.oneshotOf alg)) e := by
    rw [encode_eq_printedWord]
    exact reports (wf_oneshotOf _ alg) ((exec_oneshotOf alg s).trans h)
  have outside {a n : Nat} (h : LeavesSpace s a n) : inRange s.cfg a n = false := (inRange_false_iff ..).mpr h
  have inside {a n : Nat} (h : ¬LeavesSpace s a n) : inRange s.cfg a n = true := (inRange_iff_not_leavesSpace ..).mpr h
  refine ⟨fun v e hdec => ⟨_, commandWrite_of_error hdec, rfl⟩, fun hphase => ⟨?_, ?_, fun hd => ?_⟩,
    fun alg a hctx => ⟨fun h => ?_, fun h hl => ?_, fun h => ⟨s.wipe.setErr .range, ?_, rfl⟩⟩,
    fun alg => ⟨fun h => ?_, fun h => ?_, fun hs hd hl => ?_⟩, fun h => ?_, fun h => ?_, fun hs hd hn h1 h2 => ?_⟩
  · exact reports (i := .update) rfl (execUpdate_notActive hphase)
  · exact reports (i := .final) rfl (execFinal_notActive hphase)
  · exact reports (i := .finalDiscard) hd (execFinalDiscard_notActive hphase)
  · exact reports (i := .update) rfl (execUpdate_range hctx (outside h))
  · exact reports (i := .update) rfl (execUpdate_tooLong hctx (inside h) hl)
  · exact (commandWrite_printedWord (i := .final) rfl).trans (execFinal_range hctx (outside h))
  · exact oneshotReports (oneshotCommand_range (.inl (outside h)))
  · exact oneshotReports (oneshotCommand_range (.inr (outside h)))
  · exact oneshotReports (oneshotCommand_tooLong (inside hs) (inside hd) hl)
  · exact reports (i := .tohex) rfl (execTohex_range (.inl (outside h)))
  · exact reports (i := .tohex) rfl (execTohex_range (.inr (outside h)))
  · exact reports (i := .tohex) rfl (execTohex_overlap (inside hs) (inside hd) ((overlaps_iff ..).mpr ⟨hn, h1, h2⟩))

/-- Settles O53: the checks before it passed, the range that is not plain decides. -/
theorem sideEffectMemoryIsRefused : Obligations.SideEffectMemoryIsRefused := by
  unfold Obligations.SideEffectMemoryIsRefused
  intro s src len dst
  have inside {a n : Nat} (h : ¬LeavesSpace s a n) : inRange s.cfg a n = true := (inRange_iff_not_leavesSpace ..).mpr h
  have device {a n : Nat} (h : MeetsDevice s a n) : plainRange s.cfg a n = false := (plainRange_eq_false_iff ..).mpr h
  refine ⟨fun alg a hctx => ⟨fun hs hl h => ?update, fun hd h => ?final⟩, fun alg hs hd hl h => ?oneshot,
    fun hs hd ho h => ?tohex, fun x hx h => ⟨fun hr b => ⟨?read, ?write⟩, fun v => ?race⟩⟩
  case update => exact execUpdate_device hctx (inside hs) hl (device h)
  case final => exact execFinal_device hctx (inside hd) (device h)
  case oneshot =>
    rw [exec_oneshotOf]
    exact oneshotCommand_device (inside hs) (inside hd) hl (h.imp device device)
  case tohex =>
    exact execTohex_device (inside hs) (inside hd) (overlaps_eq_false ho) (h.imp device device)
  case read => rw [perform_memRead]; exact onHostByte_device hr hx (device h)
  case write => rw [perform_memWrite]; exact onHostByte_device hr hx (device h)
  case race => rw [perform_race_cur]; exact racedCommand_device hx (device h)

/-- Settles O16: INIT overwrites what it is said to forget before anything reads it. -/
theorem initForgetsTheOldContext : Obligations.InitForgetsTheOldContext := by
  unfold Obligations.InitForgetsTheOldContext
  intro s c cc e i hi
  obtain ⟨alg, rfl⟩ := exists_eq_initOf hi
  rw [exec_initOf, exec_initOf]
  exact ⟨initCommand_withEngine alg s c cc e, _, rfl, rfl⟩

end Sys2Proof
end

section
/-! O38, O51, O52: where a command reads and writes. It writes from DST on as many bytes as its write range has
(`exec_effect`), and with the same bytes in its read range it answers the same (`exec_withMem`). -/

namespace Sys2Proof.Machine

/-- A command leaves every byte outside its write range alone (R64). -/
theorem exec_read_outside {i : Instr} {s t : State} (h : exec i s = .next t) {x : Nat}
    (hx : x < (storeRange i s).1 ∨ (storeRange i s).1 + (storeRange i s).2 ≤ x) :
    Memory.read t.mem x = Memory.read s.mem x := by
  rw [storeRange_fst] at hx
  rcases (exec_effect h).2 with hmem | ⟨-, bs, hlen, hmem⟩
  · rw [hmem]
  · rw [hmem, read_writeBytes_outside bs _ _ _ (by rwa [hlen])]

/-- A refused command leaves host memory alone (R310). -/
theorem exec_mem_of_refused {i : Instr} {s t : State} (h : exec i s = .next t) (herr : t.eng.err ≠ .ok) :
    t.mem = s.mem := by
  rcases (exec_effect h).2 with hmem | ⟨hok, -⟩
  · exact hmem
  · exact absurd hok herr

/-- A command's write range does not depend on host memory. -/
theorem storeRange_congr {s s' : State} (h : s'.eng = s.eng) (i : Instr) : storeRange i s' = storeRange i s := by
  cases i <;> simp only [storeRange, State.dst, State.len, h]

/-- What `t` and `u` have in common where a command runs from two memories: the instance, and the bytes written from DST
on, as many as the write range has if the command is accepted. -/
def SameStores (n : Nat) (s : State) (m : Memory) (t u : State) : Prop :=
  u.eng = t.eng ∧ ∃ bs : List Byte, (t.eng.err = .ok → bs.length = n) ∧ t.mem = Memory.writeBytes s.mem s.dst bs ∧
    u.mem = Memory.writeBytes m s.dst bs

/-- Nothing written. -/
theorem sameStores_nothing {n : Nat} {s t u : State} {m : Memory} (heng : u.eng = t.eng) (hn : t.eng.err = .ok → n = 0)
    (ht : t.mem = s.mem) (hu : u.mem = m) : SameStores n s m t u :=
  ⟨heng, [], fun hok => (hn hok).symm, ht, hu⟩

theorem SameStores.read_eq {n : Nat} {s t u : State} {m : Memory} (h : SameStores n s m t u)
    (hs : Memory.wf s.mem = true) (hm : Memory.wf m = true) (hok : t.eng.err = .ok) {x : Nat} (h1 : s.dst ≤ x)
    (h2 : x < s.dst + n) : Memory.read u.mem x = Memory.read t.mem x := by
  obtain ⟨-, bs, hlen, ht, hu⟩ := h
  obtain ⟨j, rfl⟩ := Nat.exists_eq_add_of_le h1
  have hj : j < bs.length := by rw [hlen hok]; omega
  rw [ht, hu, read_writeBytes_inside bs hs _ j hj, read_writeBytes_inside bs hm _ j hj]

theorem oneshotCommand_withMem {alg : Alg} {s t : State} {m : Memory} (h : oneshotCommand alg s = .next t)
    (hread : Memory.readBytes m s.src s.len = s.srcBytes) :
    ∃ u, oneshotCommand alg { s with mem := m } = .next u ∧ SameStores alg.DL s m t u := by
  have hsrc : ({ s with mem := m } : State).srcBytes = s.srcBytes := hread
  by_cases hr : inRange s.cfg s.src s.len = false ∨ inRange s.cfg s.dst alg.DL = false
  · rw [oneshotCommand_range hr] at h; cases h
    exact ⟨_, oneshotCommand_range hr, sameStores_nothing rfl nofun rfl rfl⟩
  obtain ⟨hs, hd⟩ : inRange s.cfg s.src s.len = true ∧ inRange s.cfg s.dst alg.DL = true := by simpa using hr
  by_cases hl : 2 ^ alg.family.LW ≤ 8 * s.len
  · rw [oneshotCommand_tooLong hs hd hl] at h; cases h
    exact ⟨_, oneshotCommand_tooLong hs hd hl, sameStores_nothing rfl nofun rfl rfl⟩
  have hl : 8 * s.len < 2 ^ alg.family.LW := Nat.lt_of_not_le hl
  by_cases hp : plainRange s.cfg s.src s.len = false ∨ plainRange s.cfg s.dst alg.DL = false
  · rw [oneshotCommand_device hs hd hl hp] at h; cases h
  · obtain ⟨hps, hpd⟩ : plainRange s.cfg s.src s.len = true ∧ plainRange s.cfg s.dst alg.DL = true := by simpa using hp
    rw [oneshotCommand_ok hs hd hl hps hpd] at h; cases h
    have hok := oneshotCommand_ok (s := { s with mem := m }) hs hd hl hps hpd
    rw [hsrc] at hok
    exact ⟨_, hok, rfl, _, fun _ => length_extract _ _, rfl, rfl⟩

theorem execTohex_withMem {s t : State} {m : Memory} (h : execTohex s = .next t)
    (hread : Memory.readBytes m s.src s.len = s.srcBytes) :
    ∃ u, execTohex { s with mem := m } = .next u ∧ SameStores (2 * s.len) s m t u := by
  have hsrc : ({ s with mem := m } : State).srcBytes = s.srcBytes := hread
  by_cases hr : inRange s.cfg s.src s.len = false ∨ inRange s.cfg s.dst (2 * s.len) = false
  · rw [execTohex_range hr] at h; cases h
    exact ⟨_, execTohex_range hr, sameStores_nothing rfl nofun rfl rfl⟩
  obtain ⟨hs, hd⟩ : inRange s.cfg s.src s.len = true ∧ inRange s.cfg s.dst (2 * s.len) = true := by simpa using hr
  by_cases ho : overlaps s.src s.len s.dst = true
  · rw [execTohex_overlap hs hd ho] at h; cases h
    exact ⟨_, execTohex_overlap hs hd ho, sameStores_nothing rfl nofun rfl rfl⟩
  have ho : overlaps s.src s.len s.dst = false := Bool.eq_false_of_not_eq_true ho
  by_cases hp : plainRange s.cfg s.src s.len = false ∨ plainRange s.cfg s.dst (2 * s.len) = false
  · rw [execTohex_device hs hd ho hp] at h; cases h
  · obtain ⟨hps, hpd⟩ : plainRange s.cfg s.src s.len = true ∧ plainRange s.cfg s.dst (2 * s.len) = true := by simpa using hp
    rw [execTohex_ok hs hd ho hps hpd] at h; cases h
    have hlen : (hexText s.srcBytes).length = 2 * s.len := by rw [length_hexText, length_srcBytes]
    exact ⟨_, execTohex_ok (s := { s with mem := m }) hs hd ho hps hpd, rfl, _, fun _ => hlen, rfl,
      congrArg (fun bs => Memory.writeBytes m s.dst (hexText bs)) hsrc⟩

/-- A command whose read range holds the same bytes in another memory leaves the same instance there and writes the same
bytes (R64). -/
theorem exec_withMem {i : Instr} {s t : State} {m : Memory} (h : exec i s = .next t)
    (hread : Memory.readBytes m (readRange i s).1 (readRange i s).2 =
      Memory.readBytes s.mem (readRange i s).1 (readRange i s).2) :
    ∃ u, exec i { s with mem := m } = .next u ∧ SameStores (storeRange i s).2 s m t u := by
  cases i with
  | initSha1 | initSha224 | initSha256 | initSha384 | initSha512 =>
    cases h; exact ⟨_, rfl, sameStores_nothing rfl (fun _ => rfl) rfl rfl⟩
  | update =>
    have hsrc : ({ s with mem := m } : State).srcBytes = s.srcBytes := hread
    rcases execUpdate_next h with ⟨hphase, rfl⟩ | ⟨alg, a, hctx, ⟨hr, rfl⟩ | ⟨hr, hl, rfl⟩ | ⟨hr, hl, hp, rfl⟩⟩
    · exact ⟨_, execUpdate_notActive hphase, sameStores_nothing rfl nofun rfl rfl⟩
    · exact ⟨_, execUpdate_range hctx hr, sameStores_nothing rfl nofun rfl rfl⟩
    · exact ⟨_, execUpdate_tooLong hctx hr ((tooLong_iff ..).mp hl), sameStores_nothing rfl nofun rfl rfl⟩
    · rw [← Bool.not_eq_true, tooLong_iff, Nat.not_le] at hl
      have hok := execUpdate_ok (s := { s with mem := m }) hctx hr hl hp
      rw [hsrc] at hok
      exact ⟨_, hok, sameStores_nothing rfl (fun _ => rfl) rfl rfl⟩
  | final =>
    rcases execFinal_next h with ⟨hphase, rfl⟩ | ⟨alg, a, hctx, ⟨hd, rfl⟩ | ⟨hd, hp, rfl⟩⟩
    · exact ⟨_, execFinal_notActive hphase, sameStores_nothing rfl nofun rfl rfl⟩
    · exact ⟨_, execFinal_range hctx hd, sameStores_nothing rfl nofun rfl rfl⟩
    · refine ⟨_, execFinal_ok hctx hd hp, rfl, _, fun _ => ?_, rfl, rfl⟩
      rw [storeRange_final hctx, length_extract]
  | finalDiscard =>
    rcases execFinalDiscard_next h with ⟨hphase, rfl⟩ | ⟨hphase, rfl⟩
    · exact ⟨_, execFinalDiscard_notActive hphase, sameStores_nothing rfl nofun rfl rfl⟩
    · obtain ⟨alg, a, hctx⟩ := (phase_eq_one_iff _).mp hphase
      exact ⟨_, execFinalDiscard_active hctx, sameStores_nothing rfl (fun _ => rfl) rfl rfl⟩
  | oneshotSha1 | oneshotSha224 | oneshotSha256 | oneshotSha384 | oneshotSha512 => exact oneshotCommand_withMem h hread
  | tohex => exact execTohex_withMem h hread

end Sys2Proof.Machine

namespace Sys2Proof
open Machine

/-- Settles O38: the frame and the refusals by the inversion of `exec`; the same read range gives the same writes. -/
theorem accessesStayInTheirRanges : Obligations.AccessesStayInTheirRanges := by
  unfold Obligations.AccessesStayInTheirRanges
  refine fun i s t h => ⟨fun x hx => exec_read_outside h hx, exec_mem_of_refused h, fun m hs hm hagree => ?_⟩
  obtain ⟨u, hu, hsame⟩ := exec_withMem h (readBytes_congr hagree)
  rw [storeRange_fst]
  exact ⟨u, hu, hsame.1, fun hok x h1 h2 => hsame.read_eq hs hm hok h1 h2⟩

/-- Settles O51: a byte that is not racing keeps its value through both scrambles, and the command writes in its own
range only. -/
theorem racesStayLocal : Obligations.RacesStayLocal := by
  unfold Obligations.RacesStayLocal
  intro s t v addrs h
  rw [perform_race_cur] at h
  refine ⟨(racedCommand_local h).parked, (racedCommand_local h).cur, fun x hx hrange => ?_⟩
  obtain ⟨-, -, u, hu, rfl⟩ := racedCommand_next h
  have hcommand : Memory.read u.mem x = Memory.read (s.scramble addrs).mem x := by
    rcases commandWrite_next hu with ⟨e, -, rfl⟩ | ⟨i, hdec, hexec⟩
    · rfl
    · rw [scramble_cfg] at hdec
      refine exec_read_outside hexec ?_
      rw [storeRange_congr (scramble_eng addrs s)]
      exact hrange i hdec
  rw [read_scramble _ _ hx, hcommand, read_scramble _ _ hx]

/-- Settles O52: the reset scrambles nothing, or the write range of the command the word decodes to. -/
theorem resetDuringCommandStaysLocal : Obligations.ResetDuringCommandStaysLocal := by
  unfold Obligations.ResetDuringCommandStaysLocal
  intro s t v h
  have h : resetDuringCommand v s = .next t := (onInstance_cur (resetDuringCommand v) s).symm.trans h
  obtain ⟨hlocal, heng⟩ := resetDuringCommand_local h
  refine ⟨heng, hlocal.parked, fun x hrange => ?_⟩
  rcases resetDuringCommand_next h with rfl | ⟨i, u, hdec, -, -, rfl⟩
  · rfl
  · have hx : x ∉ (List.range (storeRange i s).2).map fun j => (storeRange i s).1 + j := by
      intro hmem
      obtain ⟨j, hj, rfl⟩ := List.mem_map.mp hmem
      have := List.mem_range.mp hj
      have := hrange i hdec
      omega
    rw [resetEngine_mem, read_scramble _ _ hx]

end Sys2Proof
end

section
/-! O40, O56, O41, O42, O43: the register block. STATUS is the sum of its fields at their places (`toNat_status`); an
access to the addressed instance is one to the register that `registerAt` names (`perform_regRead_cur`,
`perform_regWrite_cur`). -/

namespace Sys2Proof.Machine

/-! ### STATUS -/

/-- Bit fields side by side, as integers. -/
theorem toNat_append_eq {m n : Nat} (x : BitVec m) (y : BitVec n) : (x ++ y).toNat = x.toNat * 2 ^ n + y.toNat := by
  rw [BitVec.toNat_append, ← Nat.shiftLeft_add_eq_or_of_lt y.isLt, Nat.shiftLeft_eq]

/-- The fields of STATUS at their places (R45). -/
theorem toNat_status (e : Engine) :
    e.status.toNat = 256 * (errBits e.err).toNat + 16 * e.ctx.algCode.toNat + e.ctx.phase.toNat := by
  simp only [Engine.status, BitVec.toNat_cast, toNat_append_eq]
  simp
  omega

theorem toNat_errBits (e : ErrCode) : (errBits e).toNat = printedErr e := by cases e <;> rfl

@[simp] theorem algCode_active (alg : Alg) (a : Active alg.family) : (Ctx.active alg a).algCode = alg.code := rfl

theorem toNat_code (alg : Alg) : alg.code.toNat = printedAlg alg := by cases alg <;> rfl

/-- An algorithm's code is not 0 (R84). -/
theorem code_ne_zero (alg : Alg) : alg.code ≠ 0 := by cases alg <;> decide

theorem toNat_code_le (alg : Alg) : alg.code.toNat ≤ 5 := by cases alg <;> decide

theorem phase_eq_one_iff_algCode (c : Ctx) : c.phase = 1 ↔ c.algCode ≠ 0 := by
  cases c with
  | invalid => decide
  | active alg a => simpa using code_ne_zero alg
  | finalized => decide

theorem toNat_algCode_le (c : Ctx) : c.algCode.toNat ≤ 5 := by
  cases c with
  | invalid => decide
  | active alg a => exact toNat_code_le alg
  | finalized => decide

/-! ### Accesses to the addressed instance -/

theorem onRegister_of_registerAt {off : BitVec 6} {w : Nat} {r : Register} (hr : registerAt off w = some r)
    (act : Register → State → Host.Outcome State Fault Refusal) (s : State) : onRegister off w act s = act r s := by
  rw [onRegister, hr]

theorem onRegister_of_none {off : BitVec 6} {w : Nat} (hr : registerAt off w = none)
    (act : Register → State → Host.Outcome State Fault Refusal) (s : State) :
    onRegister off w act s = .refused .registerAccess := by
  rw [onRegister, hr]

section
variable {off : BitVec 6} {w : Nat} {r : Register} (hr : registerAt off w = some r) (s : State)
include hr

theorem perform_regRead_cur :
    perform (.regRead s.cur off w) s = .next { s with rdata := some (readRegister r s.eng) } :=
  (onInstance_cur _ s).trans (onRegister_of_registerAt hr _ s)

theorem perform_regWrite_cur (v : W64) : perform (.regWrite s.cur off w v) s = writeRegister r v s :=
  (onInstance_cur _ s).trans (onRegister_of_registerAt hr _ s)

theorem perform_check_cur (f : BitField) (v : Nat) :
    perform (.check s.cur off w f v) s =
      .next { s with checks := s.checks ++ [decide (fieldValue f (readRegister r s.eng).toNat = v)] } :=
  (onInstance_cur _ s).trans (onRegister_of_registerAt hr _ s)

end

/-- R47's reserved offsets (assumption log 6). -/
theorem registerAt_reserved : ∀ off ∈ [(0x04 : BitVec 6), 0x0C, 0x14, 0x1C, 0x24, 0x2C, 0x30, 0x34, 0x38, 0x3C],
    registerAt off 4 = some .reserved := by decide

/-! ### Illegal accesses (R48) -/

theorem registerAt_of_width {off : BitVec 6} {w : Nat} (h4 : w ≠ 4) (h8 : w ≠ 8) : registerAt off w = none := by
  rw [registerAt, if_neg h4, if_neg h8]

/-- A 4-byte access to a 64-bit register, or a misaligned one. -/
theorem registerAt_four_eq_none : ∀ off : BitVec 6,
    (off = 0x08 ∨ off = 0x10 ∨ off = 0x18 ∨ off = 0x28) ∨ off.toNat % 4 ≠ 0 → registerAt off 4 = none := by decide

/-- An 8-byte access to a 32-bit register, or a misaligned one. -/
theorem registerAt_eight_eq_none : ∀ off : BitVec 6,
    (off = 0x00 ∨ off = 0x20) ∨ off.toNat % 8 ≠ 0 → registerAt off 8 = none := by decide

/-- CMD is at offset 0 (R40). -/
theorem off_eq_zero_of_cmd {off : BitVec 6} {w : Nat} (h : registerAt off w = some .cmd) : off = 0x00 := by
  unfold registerAt at h
  split at h
  · split at h
    · assumption
    · split_ifs at h <;> cases h
  · split_ifs at h <;> cases h

/-! ### The context behind the registers (R49) -/

/-- A register's value depends on the context through PHASE and ALG only. -/
theorem readRegister_withCtx (r : Register) {e : Engine} {c : Ctx} (hphase : c.phase = e.ctx.phase)
    (halg : c.algCode = e.ctx.algCode) : readRegister r { e with ctx := c } = readRegister r e := by
  cases r with
  | cmd | arg0 | arg1 | arg2 | ccount | reserved => rfl
  | status => simp only [readRegister, Engine.status, hphase, halg]

theorem ctx_writeRegister {r : Register} (hr : r ≠ .cmd) {v : W64} {s t : State} (h : writeRegister r v s = .next t) :
    t.eng.ctx = s.eng.ctx := by
  cases r with
  | cmd => exact absurd rfl hr
  | arg0 | arg1 | arg2 | status | ccount | reserved => cases h; rfl

end Sys2Proof.Machine

namespace Sys2Proof
open Machine

/-- Settles O40: STATUS is the sum of its fields, whose codes are read off their tables. -/
theorem statusWordLayout : Obligations.StatusWordLayout := by
  unfold Obligations.StatusWordLayout
  intro e
  have halg := toNat_algCode_le e.ctx
  have herr := (errBits e.err).isLt
  have hphase := e.ctx.phase.isLt
  refine ⟨toNat_errBits e.err, ?codes, toNat_status e, by rw [toNat_status]; omega, phase_eq_one_iff_algCode e.ctx, halg⟩
  case codes =>
    cases e.ctx with
    | invalid => rfl
    | active alg a => exact congrArg (Prod.mk 1) (toNat_code alg)
    | finalized => rfl

/-- Settles O56: the field is cut out of STATUS's sum, and `[63:0]` is all of CCOUNT. -/
theorem checkRecordsTheField : Obligations.CheckRecordsTheField := by
  unfold Obligations.CheckRecordsTheField
  intro s v recorded
  have hread (r : Register) {off : BitVec 6} {w : Nat} (hr : registerAt off w = some r) {f : BitField} {n : Nat}
      (hn : fieldValue f (readRegister r s.eng).toNat = n) :
      perform (.check s.cur off w f v) s = recorded (decide (n = v)) := by
    rw [perform_check_cur hr, hn]
  have hstatus : (readRegister .status s.eng).toNat = s.eng.status.toNat := by
    rw [readRegister, BitVec.toNat_setWidth]; exact Nat.mod_eq_of_lt (by have := s.eng.status.isLt; omega)
  have herr := (errBits s.eng.err).isLt
  have halg := s.eng.ctx.algCode.isLt
  have hphase := s.eng.ctx.phase.isLt
  refine ⟨hread .status rfl ?phase, hread .status rfl ?alg, hread .status rfl ?err, hread .ccount rfl ?ccount,
    hread .cmd rfl ?cmd⟩
  case phase => rw [hstatus, toNat_status]; simp only [fieldValue]; omega
  case alg => rw [hstatus, toNat_status]; simp only [fieldValue]; omega
  case err => rw [hstatus, toNat_status]; simp only [fieldValue]; omega
  case ccount =>
    have := s.eng.ccount.isLt
    simp only [fieldValue, readRegister]; omega
  case cmd => simp [fieldValue, readRegister]

/-- Settles O41: `registerAt` names the register of each printed offset and width. -/
theorem registerBlockReadsAndWrites : Obligations.RegisterBlockReadsAndWrites := by
  unfold Obligations.RegisterBlockReadsAndWrites
  intro s v rd wr
  have hread {r : Register} {off : BitVec 6} {w : Nat} (hr : registerAt off w = some r) (t : State) :
      rd off w t = .next { t with rdata := some (readRegister r t.eng) } := perform_regRead_cur hr t
  have hwrite {r : Register} {off : BitVec 6} {w : Nat} (hr : registerAt off w = some r) :
      wr off w = writeRegister r v s := perform_regWrite_cur hr s v
  exact ⟨⟨_, hwrite (r := .arg0) rfl, rfl, hread (r := .arg0) rfl _⟩,
    ⟨_, hwrite (r := .arg1) rfl, rfl, hread (r := .arg1) rfl _⟩,
    ⟨_, hwrite (r := .arg2) rfl, rfl, hread (r := .arg2) rfl _⟩,
    hread (r := .cmd) rfl s, hread (r := .status) rfl s, hwrite (r := .status) rfl, hread (r := .ccount) rfl s,
    hwrite (r := .ccount) rfl,
    fun off hoff => ⟨hread (registerAt_reserved off hoff) s, hwrite (registerAt_reserved off hoff)⟩⟩

/-- Settles O42: each of the listed accesses reaches no register, so it is refused. -/
theorem partialRegisterAccessIsRefused : Obligations.PartialRegisterAccessIsRefused := by
  unfold Obligations.PartialRegisterAccessIsRefused
  intro s v off w h
  have hnone : registerAt off w = none := by
    by_cases h4 : w = 4
    · subst h4
      exact registerAt_four_eq_none off (by tauto)
    by_cases h8 : w = 8
    · subst h8
      refine registerAt_eight_eq_none off ?_
      rcases h with ⟨-, h⟩ | ⟨h, -⟩ | ⟨-, h⟩ | h | ⟨-, h⟩
      · exact absurd rfl h
      · exact .inl h
      · exact absurd rfl h
      · exact .inr (by omega)
      · exact .inr h
    · exact registerAt_of_width h4 h8
  exact ⟨(onInstance_cur _ s).trans (onRegister_of_none hnone _ s),
    (onInstance_cur _ s).trans (onRegister_of_none hnone _ s)⟩

/-- Settles O43: the value read is the same, and only CMD, at offset 0, runs commands. -/
theorem contextIsHiddenFromTheHost : Obligations.ContextIsHiddenFromTheHost := by
  unfold Obligations.ContextIsHiddenFromTheHost
  rintro s c k off w hphase halg rfl
  refine ⟨fun t h => ?read, fun v t hoff h => ?write⟩
  case read =>
    obtain ⟨r, hr, h⟩ := onRegister_next ((onInstance_cur _ s).symm.trans h)
    cases h
    have hread := perform_regRead_cur hr { s with eng := { s.eng with ctx := c } }
    rw [readRegister_withCtx r hphase halg] at hread
    exact hread
  case write =>
    obtain ⟨r, hr, h⟩ := onRegister_next ((onInstance_cur _ s).symm.trans h)
    refine ctx_writeRegister ?_ h
    rintro rfl
    exact hoff (off_eq_zero_of_cmd hr)

end Sys2Proof
end

section
/-! O44, O39, O45: instances, phases and host memory. An action changes one instance only (`perform_engines`), and of the
actions on it only a reset makes its context INVALID (`perform_phase_zero`). -/

namespace Sys2Proof.Machine

theorem Local.engines {s t : State} (h : Local s t) : t.engines = ({ s with eng := t.eng } : State).engines := by
  simp only [State.engines, h.cur, h.parked]

/-- No instance comes or goes, and the one the action is on is the only one that changes (R331). -/
theorem perform_engines {act : HostAction} {s t : State} (hs : s.cur ≤ s.parked.length) (h : perform act s = .next t) :
    t.engines.length = s.engines.length ∧ ∀ j, instanceOf act ≠ some j → t.engines[j]? = s.engines[j]? := by
  rcases perform_next h with ⟨-, hlocal, heng⟩ | ⟨k, u, hk, hu, hlocal⟩
  · have hengines : t.engines = s.engines := by rw [hlocal.engines, heng]
    exact ⟨by rw [hengines], fun j _ => by rw [hengines]⟩
  · obtain ⟨hcur, hle, hengines, -⟩ := select_some hs hu
    refine ⟨?_, fun j hj => ?_⟩
    · rw [← hengines, length_engines, length_engines, hlocal.parked]
    · have hne : j ≠ u.cur := by
        rintro rfl
        exact hj (hk.trans (congrArg some hcur.symm))
      rw [← hengines, hlocal.engines, engines_update u t.eng j hne hle]

/-- No command makes the context INVALID (R31). -/
theorem exec_phase_ne_zero {i : Instr} {s t : State} (h : exec i s = .next t) (hne : s.eng.ctx.phase ≠ 0) :
    t.eng.ctx.phase ≠ 0 := by
  rcases exec_ctx h with e | ⟨alg, -, e⟩ | ⟨alg, a, -, -, -, e⟩ | ⟨e, -⟩
  · rwa [e]
  · rw [e, phase_active]; decide
  · rw [e, phase_active]; decide
  · rw [e]; decide

theorem commandWrite_phase_ne_zero {v : W32} {s t : State} (h : commandWrite v s = .next t)
    (hne : s.eng.ctx.phase ≠ 0) : t.eng.ctx.phase ≠ 0 := by
  rcases commandWrite_next h with ⟨e, -, rfl⟩ | ⟨i, -, h⟩
  · exact hne
  · exact exec_phase_ne_zero h hne

theorem writeRegister_phase_ne_zero {r : Register} {v : W64} {s t : State} (h : writeRegister r v s = .next t)
    (hne : s.eng.ctx.phase ≠ 0) : t.eng.ctx.phase ≠ 0 := by
  by_cases hr : r = .cmd
  · subst hr
    exact commandWrite_phase_ne_zero h hne
  · rwa [ctx_writeRegister hr h]

theorem racedCommand_phase_ne_zero {v : W32} {as : List Nat} {s t : State} (h : racedCommand v as s = .next t)
    (hne : s.eng.ctx.phase ≠ 0) : t.eng.ctx.phase ≠ 0 := by
  obtain ⟨-, -, u, hu, rfl⟩ := racedCommand_next h
  rw [scramble_eng]
  exact commandWrite_phase_ne_zero hu (by rwa [scramble_eng])

/-- An action on instance `k` that makes its context INVALID is a reset of `k`. -/
theorem perform_phase_zero {act : HostAction} {s t u : State} {k : Nat} (hk : instanceOf act = some k)
    (hu : s.select k = some u) (h : perform act s = .next t) (hne : u.eng.ctx.phase ≠ 0) (h0 : t.eng.ctx.phase = 0) :
    act = .reset k ∨ ∃ v, act = .resetDuring k v := by
  have hact {f : State → Host.Outcome State Fault Refusal} (h : onInstance k f s = .next t) : f u = .next t := by
    rwa [onInstance, hu] at h
  cases act with
  | regWrite k' off w v =>
    cases hk
    obtain ⟨r, -, h⟩ := onRegister_next (hact h)
    exact absurd h0 (writeRegister_phase_ne_zero h hne)
  | regRead k' off w =>
    cases hk
    obtain ⟨r, -, h⟩ := onRegister_next (hact h)
    cases h
    exact absurd h0 hne
  | check k' off w f v =>
    cases hk
    obtain ⟨r, -, h⟩ := onRegister_next (hact h)
    cases h
    exact absurd h0 hne
  | memWrite a b => cases hk
  | memRead a => cases hk
  | reset k' => cases hk; exact .inl rfl
  | resetDuring k' v => cases hk; exact .inr ⟨v, rfl⟩
  | race k' v as =>
    cases hk
    exact absurd h0 (racedCommand_phase_ne_zero (hact h) hne)

theorem initOf_mem_initializing (alg : Alg) : Instr.initOf alg ∈ initializing := by cases alg <;> decide

theorem oneshotOf_mem_finalizing (alg : Alg) : Instr.oneshotOf alg ∈ finalizing := by cases alg <;> decide

/-- A command that moves PHASE is an INIT to ACTIVE or a finalizing command to FINALIZED (R31). -/
theorem exec_phase_moved {i : Instr} {s t : State} (h : exec i s = .next t) (hne : t.eng.ctx.phase ≠ s.eng.ctx.phase) :
    (t.eng.ctx.phase = 1 ∧ i ∈ initializing) ∨ (t.eng.ctx.phase = 2 ∧ i ∈ finalizing) := by
  rcases exec_ctx h with e | ⟨alg, rfl, e⟩ | ⟨alg, a, -, hctx, -, e⟩ | ⟨e, hi⟩
  · exact absurd (congrArg Ctx.phase e) hne
  · exact .inl ⟨by rw [e, phase_active], initOf_mem_initializing alg⟩
  · rw [e, hctx] at hne
    exact absurd rfl hne
  · refine .inr ⟨by rw [e, phase_finalized], ?_⟩
    rcases hi with rfl | rfl | ⟨alg, rfl⟩
    · decide
    · decide
    · exact oneshotOf_mem_finalizing alg

end Sys2Proof.Machine

namespace Sys2Proof
open Machine

/-- Settles O44: an action selects its instance and changes no other. -/
theorem instancesAreIndependent : Obligations.InstancesAreIndependent := by
  unfold Obligations.InstancesAreIndependent
  exact fun s t act hs h => perform_engines hs h

/-- Settles O39: an instance whose PHASE becomes INVALID has changed, so the action is on it, and then it is a reset. -/
theorem phaseMovesAsRuled : Obligations.PhaseMovesAsRuled := by
  unfold Obligations.PhaseMovesAsRuled
  refine ⟨fun i s hi hphase => exec_notActive hi hphase, fun i s t h hne => exec_phase_moved h hne,
    fun s t act k e e' h hs he he' hne h0 => ?invalid, fun c => ?three⟩
  case invalid =>
    have hk : instanceOf act = some k := by
      by_contra hk
      rw [(perform_engines hs h).2 k hk, he] at he'
      cases he'
      exact hne h0
    rcases perform_next h with ⟨hnone, -, -⟩ | ⟨k', u, hk', hu, hlocal⟩
    · rw [hnone] at hk
      cases hk
    · obtain rfl : k' = k := Option.some.inj (hk'.symm.trans hk)
      obtain ⟨hcur, hle, hengines, -⟩ := select_some hs hu
      have hbefore : u.eng = e := Option.some.inj (by rw [← engines_cur hle, hengines, hcur, he])
      have hafter : t.eng = e' := Option.some.inj (by
        rw [← engines_cur (s := t) (by rw [hlocal.cur, hlocal.parked]; exact hle), hlocal.cur, hcur, he'])
      exact perform_phase_zero hk hu h (by rwa [hbefore]) (by rwa [hafter])
  case three =>
    cases c with
    | invalid => decide
    | active alg a => rw [phase_active]; decide
    | finalized => decide

/-- Settles O45: the write is to plain memory that exists, and so is the read. -/
theorem hostMemoryReadsBack : Obligations.HostMemoryReadsBack := by
  unfold Obligations.HostMemoryReadsBack
  intro s a b hwf ha hr hp
  refine ⟨_, (perform_memWrite a b s).trans (onHostByte_plain hr ha hp), ?_, rfl, fun x hx => read_write_ne b hx s.mem⟩
  have hread := onHostByte_plain (s := { s with mem := Memory.write s.mem a b })
    (act := fun t => { t with rdata := some ((Memory.read t.mem a).setWidth 64) }) hr ha hp
  rw [perform_memRead, hread, read_write_same hwf]

end Sys2Proof
end

section
/-! O6, O57, O59, O58: queues of host actions. A step that writes to a register of instance `k` is that write on the
machine with `k` addressed (`step_regWrite_of_select`); once `k` is addressed, a line runs action by action
(`step_writeArg0`, `step_writeArg1`, `step_writeArg2`, `step_writeCmd`). -/

namespace Sys2Proof.Machine

/-! ### One action of the queue -/

theorem commandWrite_of_ok {v : W32} {s : State} {i : Instr} (h : decode s.cfg.hasDiscard v = .ok i) :
    commandWrite v s = exec i s := by
  rw [commandWrite, h]

/-- Selection addresses instance `k` and leaves the configuration alone. -/
theorem select_cur_cfg {k : Nat} {s u : State} (h : s.select k = some u) : u.cur = k ∧ u.cfg = s.cfg := by
  unfold State.select at h
  split at h
  · next hk => cases h; exact ⟨hk.symm, rfl⟩
  · split at h
    · cases h
    · cases h; exact ⟨rfl, rfl⟩

/-- A step whose action is a register write to an instance the platform holds. -/
theorem step_of_regWrite {s u : State} {k : Nat} {off : BitVec 6} {w : Nat} {v : W64} {rest : List HostAction}
    (hq : s.queue = .regWrite k off w v :: rest) (hu : State.select k { s with queue := rest } = some u) :
    step s = onRegister off w (fun r t => writeRegister r v t) u := by
  rw [step_of_queue hq, perform, onInstance, hu]

/-! ### The lines of a program -/

/-- A line that exists stands for the actions printed from R40, R87, R93 and R94. -/
theorem actions_eq_printedActions {d : Bool} {l : HostLine} (hl : l.wf d = true) (k : Nat) :
    l.actions k = printedActions k l := by
  cases l with
  | command i src len dst =>
    simp only [HostLine.actions, commandLine, writeLine, encode_eq_printedWord]
    rfl
  | wr r v =>
    cases r with
    | cmd | arg0 | arg1 | arg2 | status | ccount => rfl
    | reserved => cases hl
  | rd r =>
    cases r with
    | cmd | arg0 | arg1 | arg2 | status | ccount => rfl
    | reserved => cases hl
  | check r f v =>
    cases r with
    | cmd | arg0 | arg1 | arg2 | status | ccount => rfl
    | reserved => cases hl
  | hash alg src len dst => cases alg <;> rfl
  | wipe => rfl
  | updateEmpty => rfl

/-- The lines of a program in two parts are placed one part after the other. -/
theorem placeMemory_append_cons (m : Memory) (l1 l2 : List MemoryLine) (l : MemoryLine) :
    placeMemory m (l1 ++ l :: l2) = placeMemory (Memory.writeBytes (placeMemory m l1) l.start l.bytes) l2 := by
  simp [placeMemory]

/-- A byte of a memory line is in place where no later line lies over it. -/
theorem read_placeMemory_inside {m : Memory} (hm : Memory.wf m = true) {l1 l2 : List MemoryLine} {l : MemoryLine} {j : Nat}
    (hj : j < l.bytes.length)
    (hlater : ∀ l' ∈ l2, l.start + j < l'.start ∨ l'.start + l'.bytes.length ≤ l.start + j) :
    Memory.read (placeMemory m (l1 ++ l :: l2)) (l.start + j) = l.bytes[j] := by
  rw [placeMemory_append_cons, read_placeMemory_outside l2 _ hlater,
    read_writeBytes_inside l.bytes (wf_placeMemory l1 hm) l.start j hj]

/-! ### Running a line on the addressed instance -/

section
variable {s : State} {v : W64} {rest : List HostAction}

theorem step_writeArg0 (hq : s.queue = writeLine s.cur .arg0 v :: rest) :
    step s = .next { s with queue := rest, eng := { s.eng with arg0 := v } } :=
  step_regWrite s (r := .arg0) rfl hq

theorem step_writeArg1 (hq : s.queue = writeLine s.cur .arg1 v :: rest) :
    step s = .next { s with queue := rest, eng := { s.eng with arg1 := v } } :=
  step_regWrite s (r := .arg1) rfl hq

theorem step_writeArg2 (hq : s.queue = writeLine s.cur .arg2 v :: rest) :
    step s = .next { s with queue := rest, eng := { s.eng with arg2 := v } } :=
  step_regWrite s (r := .arg2) rfl hq

/-- The write of a command's word runs the command, if it exists. -/
theorem step_writeCmd {i : Instr} (hi : i.wf s.cfg.hasDiscard = true)
    (hq : s.queue = writeLine s.cur .cmd ((encode i).setWidth 64) :: rest) : step s = exec i { s with queue := rest } := by
  have hword : (((encode i).setWidth 64).setWidth 32 : W32) = printedWord i := by
    rw [encode_eq_printedWord, BitVec.setWidth_setWidth_of_le _ (by decide), BitVec.setWidth_eq]
  refine (step_regWrite s (r := .cmd) rfl hq).trans ?_
  rw [writeRegister, hword]
  exact commandWrite_printedWord hi

end

/-- A run whose first action writes to a register of instance `k` may start with `k` addressed. -/
theorem run_of_select {s u : State} {k : Nat} (hu : s.select k = some u) {off : BitVec 6} {w : Nat} {v : W64}
    {rest : List HostAction} (n : Nat) :
    Host.Core.run core (n + 1) { s with queue := .regWrite k off w v :: rest } =
      Host.Core.run core (n + 1) { u with queue := .regWrite k off w v :: rest } := by
  have hs : State.select k { s with queue := rest } = some { u with queue := rest } := by rw [select_queue, hu]; rfl
  have hu : State.select k { u with queue := rest } = some { u with queue := rest } := by
    obtain rfl := (select_cur_cfg hu).1
    exact select_cur { u with queue := rest }
  have hstep := (step_of_regWrite (s := { s with queue := .regWrite k off w v :: rest }) rfl hs).trans
    (step_of_regWrite (s := { u with queue := .regWrite k off w v :: rest }) rfl hu).symm
  simp only [Host.Core.run]
  rw [show core.step = step from rfl, hstep]

/-- Without instance `k` the first action faults. -/
theorem run_of_select_none {s : State} {k : Nat} (hu : s.select k = none) {off : BitVec 6} {w : Nat} {v : W64}
    {rest : List HostAction} (n : Nat) :
    Host.Core.run core (n + 1) { s with queue := .regWrite k off w v :: rest } = .fault .noSuchInstance := by
  have hs : State.select k { s with queue := rest } = none := by rw [select_queue, hu]; rfl
  have hstep : step { s with queue := .regWrite k off w v :: rest } = .fault .noSuchInstance := by
    rw [step_of_queue rfl, perform, onInstance, hs]
  simp only [Host.Core.run]
  rw [show core.step = step from rfl, hstep]

/-- The last step of a run. -/
theorem run_one (s : State) : Host.Core.run core 1 s = step s := by
  simp only [Host.Core.run]
  rw [show core.step = step from rfl]
  cases step s <;> rfl

/-- The ONESHOT line on the addressed instance runs ONESHOT with the line's operands. -/
theorem run_oneshotLine (s : State) (alg : Alg) (src len dst : W64) :
    Host.Core.run core 4
        { s with queue := HostLine.actions s.cur (.command (.oneshotOf alg) (some src) (some len) (some dst)) } =
      oneshotCommand alg (withOperands { s with queue := [] } src len dst) := by
  refine (run_succ (step_writeArg0 rfl)).trans ((run_succ (step_writeArg1 rfl)).trans
    ((run_succ (step_writeArg2 rfl)).trans ((run_one _).trans ((step_writeCmd (wf_oneshotOf _ alg) rfl).trans ?_))))
  exact exec_oneshotOf alg _

/-- The HASH line on the addressed instance, its UPDATE and FINAL passing their checks, ends where a ONESHOT with its
operands does (R94, R261). -/
theorem run_hashLine {s : State} {alg : Alg} {src len dst : W64} {t : State}
    (h : oneshotCommand alg (withOperands { s with queue := [] } src len dst) = .next t) (hok : t.eng.err = .ok) :
    Host.Core.run core 6 { s with queue := HostLine.actions s.cur (.hash alg src len dst) } = .next t := by
  rcases oneshotCommand_next h with ⟨-, rfl⟩ | ⟨-, rfl⟩ | ⟨hs, hd, hl, hps, hpd, rfl⟩
  · cases hok
  · cases hok
  have hroom : (initStep alg).act.bc.toNat + 8 * len.toNat < 2 ^ alg.family.LW := by simpa [initStep] using hl
  refine (run_succ ((step_writeCmd (wf_initOf _ alg) rfl).trans
    ((exec_initOf alg _).trans (initCommand_eq alg _)))).trans ?_
  refine (run_succ (step_writeArg0 rfl)).trans ((run_succ (step_writeArg1 rfl)).trans ?_)
  refine (run_succ ((step_writeCmd (i := .update) rfl rfl).trans
    ((exec_update _).trans (execUpdate_ok (alg := alg) rfl ?_ ?_ ?_)))).trans ?_
  · exact hs
  · exact hroom
  · exact hps
  refine (run_succ (step_writeArg2 rfl)).trans ((run_one _).trans ?_)
  refine (step_writeCmd (i := .final) rfl rfl).trans ((exec_final _).trans ((execFinal_ok (alg := alg) rfl ?_ ?_).trans ?_))
  · exact hd
  · exact hpd
  · rfl

end Sys2Proof.Machine

namespace Sys2Proof
open Machine

/-- Settles O6: the access at offset 0 reaches CMD, so the step is the command write on the selected instance. -/
theorem stepRunsTheDecodedCommand : Obligations.StepRunsTheDecodedCommand := by
  unfold Obligations.StepRunsTheDecodedCommand
  refine ⟨fun s t k v rest i hq hsel hdec => ?selected, fun s w i hw hdec => ?fetched⟩
  case selected =>
    rw [← (select_cur_cfg hsel).2] at hdec
    exact (step_of_regWrite hq hsel).trans ((onRegister_of_registerAt (r := .cmd) rfl _ t).trans (commandWrite_of_ok hdec))
  case fetched =>
    have hword : ((BitVec.ofNat 64 w).setWidth 32 : W32) = BitVec.ofNat 32 w :=
      BitVec.eq_of_toNat_eq (by simp only [BitVec.toNat_setWidth, BitVec.toNat_ofNat]; omega)
    rw [withFetchWord_eq hw, step_regWrite s (r := .cmd) rfl rfl, writeRegister, hword]
    exact commandWrite_of_ok hdec

/-- Settles O57: each line's actions are the printed ones, and a byte that later lines leave alone is the one placed. -/
theorem programStartsWithItsMemory : Obligations.ProgramStartsWithItsMemory := by
  unfold Obligations.ProgramStartsWithItsMemory
  intro s t k p hm h
  obtain ⟨hwf, rfl⟩ := withProgram_some h
  refine ⟨?_, fun l1 m l2 hp j hj hlater => ?_, fun x hx => read_placeMemory_outside p.memory s.mem hx⟩
  · have hlines : ∀ l ∈ p.lines, l.wf s.cfg.hasDiscard = true := by
      simp only [HostProgram.wf, Bool.and_eq_true, List.all_eq_true] at hwf
      exact hwf.2
    have hactions : p.lines.flatMap (HostLine.actions k) = p.lines.flatMap (printedActions k) :=
      List.flatMap_congr fun l hl => actions_eq_printedActions (hlines l hl) k
    rw [hactions]
  · rw [List.getElem?_eq_getElem hj, hp]
    exact congrArg some (read_placeMemory_inside hm hj hlater)

/-- Settles O58: the ONESHOT line runs, so instance `k` exists; with `k` addressed both lines run, the one to ONESHOT's end
state and the other to the state INIT, UPDATE and FINAL leave. -/
theorem hashLineEqualsOneshotLine : Obligations.HashLineEqualsOneshotLine := by
  unfold Obligations.HashLineEqualsOneshotLine
  intro s t k alg src len dst h hok
  cases hu : s.select k with
  | none =>
    have hfault := (run_of_select_none hu 3).symm.trans h
    cases hfault
  | some u =>
    have h := (run_of_select hu 3).symm.trans h
    obtain rfl := (select_cur_cfg hu).1
    exact (run_of_select hu 5).trans (run_hashLine ((run_oneshotLine u alg src len dst).symm.trans h) hok)

/-- Settles O59: a WIPE line exists only under HAS_DISCARD and is one command write; UPDATE.EMPTY is an operand write and
an UPDATE of no bytes (O21). -/
theorem wipeAndUpdateEmptyLines : Obligations.WipeAndUpdateEmptyLines := by
  unfold Obligations.WipeAndUpdateEmptyLines
  refine fun s => ⟨fun hd k p hmem => ?noWipe, fun hd => ?wipe, ?updateEmpty⟩
  case noWipe =>
    refine if_neg fun hwf => ?_
    simp only [HostProgram.wf, Bool.and_eq_true, List.all_eq_true] at hwf
    have hwipe := hwf.2 _ hmem
    rw [HostLine.wf, hd] at hwipe
    cases hwipe
  case wipe =>
    exact ⟨_, withProgram_wf (by simp [HostProgram.wf, HostLine.wf, hd]) s.cur, step_writeCmd (i := .finalDiscard) hd rfl⟩
  case updateEmpty =>
    refine ⟨_, withProgram_wf rfl s.cur, fun hactive => ?_⟩
    refine (run_succ (step_writeArg1 rfl)).trans ((run_one _).trans ((step_writeCmd (i := .update) rfl rfl).trans ?_))
    exact (zeroLengthUpdate _ rfl).1 hactive

end Sys2Proof
end
